-- ==== Sys2Proof/Word.lean ====
section
/-! DEFINITION. The word types of the core (00_scope.md R12): every value of the spec is an unsigned
bit string of one of these widths, and arithmetic on it wraps (R10). -/

namespace Sys2Proof

/-- A register, timer or memory byte: 8 bits (00_scope.md R12). -/
abbrev Byte := BitVec 8

/-- An opcode word, a program-counter value or a call-stack entry: 16 bits (00_scope.md R12). -/
abbrev Word := BitVec 16

/-- The address register I and the operand `nnn`: 12 bits (00_scope.md R12). -/
abbrev Addr := BitVec 12

/-- A 4-bit field of a word, read as a number: a family, a secondary key or a count
(00_scope.md R12, 30_encoding.md R84). -/
abbrev Nibble := BitVec 4

/-- A register index, 0 to 15, for V0 to VF (30_encoding.md R84). -/
abbrev RegIdx := BitVec 4

/-- The index of VF, "the carry/borrow/collision flag" (10_state.md R21, 00_scope.md R8 FLAG_REG). -/
abbrev vf : RegIdx := 15#4

/-- The index of V0, read by `JP V0, nnn` (10_state.md R20). -/
abbrev v0 : RegIdx := 0#4

end Sys2Proof
end

