-- ==== Sys2Proof/Config.lean ====
section
/-! DEFINITION. What is fixed for the machine and is not state: the one configuration switch, the parameters of
00_scope.md R8, and the one free value. -/

namespace Sys2Proof

/-- The configuration: "The only configuration is STRICT_SECONDARY" (10_state.md R34, 90_conflicts.md C4),
fixed when the machine is built and written by nothing. -/
structure Config where
  /-- STRICT_SECONDARY (30_encoding.md R92): does an unrecognized secondary code raise DecodeFault? -/
  strictSecondary : Bool
  deriving DecidableEq, Repr

/-- The canonical configuration: STRICT_SECONDARY = false (00_scope.md R8, 30_encoding.md R92). -/
def Config.canonical : Config := { strictSecondary := false }

/-- The strict configuration: STRICT_SECONDARY = true (30_encoding.md R92). -/
def Config.strict : Config := { strictSecondary := true }

/-- MEM_SIZE: 4096 bytes, addresses 0 to 4095 (00_scope.md R8, 20_memory.md R50). -/
abbrev Config.memSize : Nat := 4096

/-- BOUNDS_LIMIT: the program counter may not reach it (00_scope.md R8, 40_cycle_and_interface.md R113).
DESIGN CHOICE of the spec, decision D5, unsafe: notes/assumptions/4.md. -/
abbrev Config.boundsLimit : Nat := 4096

/-- INIT_PC (00_scope.md R8, 10_state.md R38). DESIGN CHOICE of the spec, decision D18, unsafe:
notes/assumptions/1.md. -/
abbrev Config.initPc : Word := 0x200#16

/-- FONT_BASE (00_scope.md R8). DESIGN CHOICE of the spec, decision D19, unsafe: notes/assumptions/13.md. -/
abbrev Config.fontBase : Nat := 0

/-- GLYPH_SIZE, the bytes of one font glyph (00_scope.md R8, 43_address_memory.md R213).
DESIGN CHOICE of the spec, decision D19, unsafe: notes/assumptions/13.md. -/
abbrev Config.glyphSize : Nat := 5

/-- The random source of `RND` (42_arithmetic_logic.md R186): the byte the n-th draw returns. It has no body, so
nothing can be proved of its values and a statement about it holds for every random sequence.
DESIGN CHOICE, safe: notes/assumptions/7.md. -/
opaque Config.freeByte : Nat → Byte

end Sys2Proof
end

