-- ==== Sys2Proof/Machine/State.lean ====
section
/-! DEFINITION. The state of the core as plain data (the tuple at the head of 10_state.md), its creation value
(R38) and the reasons a step can stop. -/

namespace Sys2Proof.Machine

/-- The register file V0 to VF, "sixteen 8-bit general registers (indices 0–15)" (10_state.md R20). -/
abbrev Regs := Vector Byte 16

/-- Memory as a list of (address, byte) pairs (10_state.md R32): addresses strictly rising, none listed whose byte
is what an unlisted address reads as (`Memory.wf` in Machine/Ops.lean says so). -/
abbrev Memory := List Host.Cell

/-- The framebuffer, "fixed 64×32 grid of booleans" (10_state.md R31): 32 rows, row 0 first, of 64 pixels, column
0 first; `true` is on. -/
abbrev Framebuffer := Vector (Vector Bool 64) 32

/-- The fatal fault kinds (60_exceptions.md R301, R304). -/
inductive FatalKind where
  /-- DecodeFault (60_exceptions.md R302). -/
  | decodeFault
  /-- BoundsFault (60_exceptions.md R303). -/
  | boundsFault
  deriving DecidableEq, Repr

/-- `Halted(kind, pc0, w)`: what a fatal fault records (60_exceptions.md R304). -/
structure FaultRecord where
  /-- DecodeFault or BoundsFault. -/
  kind : FatalKind
  /-- The address of the word whose cycle faulted. -/
  pc0 : Word
  /-- That word. -/
  word : Word
  deriving DecidableEq, Repr

/-- The machine state (10_state.md, the tuple at its head), with two fields of the model's own at the end. -/
structure State where
  /-- V0 to VF (10_state.md R20). -/
  v : Regs
  /-- The address register I (10_state.md R23). -/
  i : Addr
  /-- The program counter (10_state.md R24). -/
  pc : Word
  /-- The call stack, oldest return address first (10_state.md R26, R27). -/
  stack : List Word
  /-- The delay timer DT (10_state.md R28). -/
  dt : Byte
  /-- The sound timer ST (10_state.md R28, R29). -/
  st : Byte
  /-- The keypad state, "bit k set iff key k is pressed" (10_state.md R30). -/
  keys : BitVec 16
  /-- The framebuffer (10_state.md R31). -/
  fb : Framebuffer
  /-- Memory (10_state.md R32). -/
  mem : Memory
  /-- The fault status, `none` while the core runs (10_state.md R33, 60_exceptions.md R304). -/
  fault : Option FaultRecord
  /-- The model's own: how many random bytes have been drawn (notes/assumptions/7.md). -/
  draws : Nat
  /-- The model's own: the tone requests emitted so far, oldest first (notes/assumptions/8.md). -/
  tones : List Byte
  deriving DecidableEq, Repr

/-- The state at creation, the only reset (10_state.md R38, 70_reset_and_hazards.md R330). The spec marks these values as
its own decision D18: DESIGN CHOICE, unsafe, notes/assumptions/1.md. -/
def State.reset : State where
  v := Vector.replicate 16 0x00#8
  i := 0x000#12
  pc := Config.initPc
  stack := []
  dt := 0x00#8
  st := 0x00#8
  keys := 0x0000#16
  fb := Vector.replicate 32 (Vector.replicate 64 false)
  mem := []
  fault := none
  draws := 0
  tones := []

/-- The reasons a step stops. -/
inductive Fault where
  /-- The core is halted: "every later `emulateCycle` changes no state and returns the recorded fault"
  (40_cycle_and_interface.md R116). Raised by `cycle` alone, on a state whose fault status is set. Safe: no
  further step, so nothing is claimed of what follows. -/
  | halted (f : FaultRecord)
  deriving DecidableEq, Repr

/-- The reasons the model gives an instruction no meaning. -/
inductive Refusal where
  /-- An arm of `exec` still without a meaning would answer this; none is left. Safe: the run stops. -/
  | notModelled (mnemonic : String)
  deriving DecidableEq, Repr

/-- What a step or a meaning answers. -/
abbrev Result := Host.Outcome State Fault Refusal

end Sys2Proof.Machine
end

