-- ==== Sys2Proof/Machine/Ops.lean ====
section
/-! DEFINITION. The named operations on registers, memory, the call stack, the framebuffer, the outputs and the
fault status: the primitives of 00_scope.md R11. Every meaning reads and writes the state through these. -/

namespace Sys2Proof.Machine

/-! ### General registers (10_state.md R20, R22) -/

/-- `V[x]`. -/
def readReg (v : Regs) (x : RegIdx) : Byte := v[x.toNat]

/-- `V[x] <- b`. -/
def writeReg (v : Regs) (x : RegIdx) (b : Byte) : Regs := v.set x.toNat b

/-- `V[x]` in a state. -/
def State.reg (s : State) (x : RegIdx) : Byte := readReg s.v x

/-- `V[x] <- b` in a state. -/
def State.setReg (s : State) (x : RegIdx) (b : Byte) : State := { s with v := writeReg s.v x b }

/-- Replaces the whole register file. -/
def State.setRegs (s : State) (v : Regs) : State := { s with v := v }

/-! ### I, pc and the timers (10_state.md R23, R24, R28) -/

/-- `I <- a`; the 12 bits of `Addr` are the masking of 43_address_memory.md R211. -/
def State.setI (s : State) (a : Addr) : State := { s with i := a }

/-- `pc <- a`. -/
def State.setPc (s : State) (a : Word) : State := { s with pc := a }

/-- `DT <- b`. -/
def State.setDt (s : State) (b : Byte) : State := { s with dt := b }

/-- `ST <- b`. -/
def State.setSt (s : State) (b : Byte) : State := { s with st := b }

/-- Replaces the keypad state (10_state.md R30). -/
def State.setKeys (s : State) (k : BitVec 16) : State := { s with keys := k }

/-! ### Memory (20_memory.md R50 to R54) -/

/-- What an address that memory does not list reads as: 0x00, the creation value (10_state.md R38, decision D18).
DESIGN CHOICE, unsafe: notes/assumptions/1.md. -/
def Memory.unlisted : Byte := 0x00#8

/-- The byte listed for an address, else `Memory.unlisted`. -/
def Memory.lookup : Memory → Nat → Byte
  | [], _ => Memory.unlisted
  | (b, x) :: m, a => if a = b then x else Memory.lookup m a

/-- Lists `x` for address `a`, keeping the canonical form: an entry equal to `Memory.unlisted` is removed. -/
def Memory.insert : Memory → Nat → Byte → Memory
  | [], a, x => if x = Memory.unlisted then [] else [(a, x)]
  | (b, y) :: m, a, x =>
    if a < b then (if x = Memory.unlisted then (b, y) :: m else (a, x) :: (b, y) :: m)
    else if a = b then (if x = Memory.unlisted then m else (a, x) :: m)
    else (b, y) :: Memory.insert m a x

/-- The canonical form from an address on: addresses rise strictly, lie in memory, and no entry is
`Memory.unlisted`. -/
def Memory.wfFrom : Nat → Memory → Bool
  | _, [] => true
  | lo, (b, y) :: m => decide (lo ≤ b) && decide (b < Config.memSize) && decide (y ≠ Memory.unlisted) && Memory.wfFrom (b + 1) m

/-- The canonical form of memory. -/
def Memory.wf (m : Memory) : Bool := Memory.wfFrom 0 m

/-- `MemRead(a, 1)` (20_memory.md R53): 0x00 at 4096 and above. DESIGN CHOICE of the spec for that branch, decision
D7, unsafe: notes/assumptions/5.md. -/
def Memory.read (m : Memory) (a : Nat) : Byte := if a < Config.memSize then m.lookup a else 0x00#8

/-- `MemWrite(a, 1, x)` (20_memory.md R54): no effect at 4096 and above. DESIGN CHOICE of the spec for that branch,
decision D7, unsafe: notes/assumptions/5.md. -/
def Memory.write (m : Memory) (a : Nat) (x : Byte) : Memory := if a < Config.memSize then m.insert a x else m

/-- `MemRead(a, 1)` in a state. -/
def State.readByte (s : State) (a : Nat) : Byte := s.mem.read a

/-- `MemWrite(a, 1, x)` in a state. -/
def State.writeByte (s : State) (a : Nat) (x : Byte) : State := { s with mem := s.mem.write a x }

/-- Replaces the whole of memory. -/
def State.setMem (s : State) (m : Memory) : State := { s with mem := m }

/-! ### The call stack (10_state.md R26, R27) -/

/-- `push(x)`: "stack <- stack ++ [v]", never fails. DESIGN CHOICE of the spec (unbounded, 16-bit entries, decision
D20), safe for the source's machine: notes/assumptions/14.md. -/
def State.push (s : State) (x : Word) : State := { s with stack := s.stack ++ [x] }

/-- The value `pop()` returns, `none` on an empty stack. -/
def State.top (s : State) : Option Word := s.stack.getLast?

/-- The state after `pop()`; an empty stack stays empty. -/
def State.dropTop (s : State) : State := { s with stack := s.stack.dropLast }

/-! ### The framebuffer (10_state.md R31) -/

/-- `fb[x][y]`: column x, row y. -/
def Framebuffer.pixel (fb : Framebuffer) (x : Fin 64) (y : Fin 32) : Bool := (fb[y])[x]

/-- `fb[x][y] <- b`. -/
def Framebuffer.setPixel (fb : Framebuffer) (x : Fin 64) (y : Fin 32) (b : Bool) : Framebuffer :=
  fb.set y ((fb[y]).set x b)

/-- Every pixel off. -/
def Framebuffer.allOff : Framebuffer := Vector.replicate 32 (Vector.replicate 64 false)

/-- `fb[x][y]` in a state. -/
def State.pixel (s : State) (x : Fin 64) (y : Fin 32) : Bool := s.fb.pixel x y

/-- Replaces the framebuffer. -/
def State.setFb (s : State) (fb : Framebuffer) : State := { s with fb := fb }

/-! ### Draws and outputs -/

/-- `draw8()`, the byte (42_arithmetic_logic.md R186). -/
def State.draw8 (s : State) : Byte := Config.freeByte s.draws

/-- `draw8()`, the state after: the next draw is a fresh one (42_arithmetic_logic.md R186). -/
def State.nextDraw (s : State) : State := { s with draws := s.draws + 1 }

/-- `emit ToneRequest(x)` (40_cycle_and_interface.md R122). -/
def State.emitTone (s : State) (x : Byte) : State := { s with tones := s.tones ++ [x] }

/-! ### Faults (60_exceptions.md R300 to R309) -/

/-- Taking a fatal fault: the program counter is pc0, `Halted(kind, pc0, w)` is recorded, and nothing else changes
(60_exceptions.md R300, R304, R308). There is no vector, handler or mode to enter (R308) and no return from a fault
(R309), so no operation undoes this one. A step that raises the fault answers this as its NEXT state: DESIGN CHOICE,
safe, notes/assumptions/6.md. -/
def State.takeFault (s : State) (kind : FatalKind) (pc0 w : Word) : State :=
  { s with pc := pc0, fault := some { kind := kind, pc0 := pc0, word := w } }

/-! ### Skipping (41_control_flow.md R140) -/

/-- `skip()`: 2 more bytes, or BoundsFault with the program counter back at the skip instruction, whose word is `w`
(41_control_flow.md R140). On entry pc = pc0 + 2. DESIGN CHOICE of the spec for the fault, decision D6, unsafe:
notes/assumptions/4.md. -/
def State.skip (s : State) (w : Word) : State :=
  if Config.boundsLimit ≤ s.pc.toNat + 2 then s.takeFault .boundsFault (s.pc - 2#16) w
  else s.setPc (s.pc + 2#16)

/-- `if c then skip()`, for the skip instruction whose word is `w`. -/
def State.skipIf (s : State) (c : Bool) (w : Word) : State := if c then s.skip w else s

end Sys2Proof.Machine
end

