-- ==== Sys2Proof/Machine/Operands.lean ====
section
/-! DEFINITION. The operand forms of the ISA beside the register `V[x]` and the immediates, which stand as they are
(30_encoding.md R84: no scaling, no sign): register-indirect addresses, computed targets, keys and pixel
coordinates. -/

namespace Sys2Proof.Machine

/-- The effective address `I + k` of a memory instruction, "computed without wrapping" (43_address_memory.md R211,
20_memory.md R52). -/
def State.effAddr (s : State) (k : Nat) : Nat := s.i.toNat + k

/-- An absolute 12-bit target as a program-counter value (41_control_flow.md R141). -/
def target (nnn : Addr) : Word := nnn.setWidth 16

/-- The target "(V0+NNN) mod 4096" (41_control_flow.md R150). -/
def offsetTarget (base : Byte) (nnn : Addr) : Word := BitVec.ofNat 16 ((base.toNat + nnn.toNat) % 4096)

/-- "(I+VX) mod 4096" (43_address_memory.md R212). -/
def sumAddr (i : Addr) (b : Byte) : Addr := BitVec.ofNat 12 ((i.toNat + b.toNat) % 4096)

/-- The font address of a byte, "(VX × glyph byte size) mod 4096" from FONT_BASE (43_address_memory.md R213); the
whole byte counts, not its low nibble. -/
def fontAddr (b : Byte) : Addr := BitVec.ofNat 12 ((Config.fontBase + b.toNat * Config.glyphSize) % 4096)

/-- `pressed(k)`: false for a k of 16 or more (10_state.md R30). DESIGN CHOICE of the spec for those, decision D16,
unsafe: notes/assumptions/12.md. -/
def State.pressed (s : State) (k : Byte) : Bool := decide (k.toNat < 16) && s.keys.getLsbD k.toNat

/-- The numerically smallest pressed key, `none` if no key is pressed (45_keypad_timer.md R263). -/
def State.lowestKey (s : State) : Option Byte :=
  ((List.range 16).find? (fun k => s.keys.getLsbD k)).map (BitVec.ofNat 8)

/-- The column `(x0 + c) mod 64` (44_display.md R241). -/
def column (x0 c : Nat) : Fin 64 := Fin.ofNat 64 (x0 + c)

/-- The row `(y0 + r) mod 32` (44_display.md R241). -/
def row (y0 r : Nat) : Fin 32 := Fin.ofNat 32 (y0 + r)

/-- Bit `7 - c` of a sprite byte, the pixel of sprite column c (44_display.md R241, R243). PRESUMED (decision D15),
unsafe: notes/assumptions/11.md. -/
def spriteBit (b : Byte) (c : Nat) : Bool := b.getLsbD (7 - c)

/-- The decimal digits hundreds, tens, units of a byte (43_address_memory.md R214). -/
def hundreds (b : Byte) : Byte := BitVec.ofNat 8 (b.toNat / 100)

/-- The tens digit (43_address_memory.md R214). -/
def tens (b : Byte) : Byte := BitVec.ofNat 8 (b.toNat / 10 % 10)

/-- The units digit (43_address_memory.md R214). -/
def units (b : Byte) : Byte := BitVec.ofNat 8 (b.toNat % 10)

end Sys2Proof.Machine
end

