-- ==== Sys2Proof/Machine/AddressMemory.lean ====
section
/-! DEFINITION. The address-register and memory instructions (43_address_memory.md). None changes pc or writes VF as a
flag, and no memory instruction changes I (R211). -/

namespace Sys2Proof.Machine

/-- `LD I, nnn`: "set I=NNN" (43_address_memory.md R210). -/
def execLdI (nnn : Addr) (s : State) : Result := .next (s.setI nnn)

/-- `ADD I, Vx`: "I=(I+VX) mod 4096" (43_address_memory.md R212). -/
def execAddI (x : RegIdx) (s : State) : Result := .next (s.setI (sumAddr s.i (s.reg x)))

/-- `LD F, Vx`: "I = (VX × glyph byte size) mod 4096" (43_address_memory.md R213). -/
def execLdF (x : RegIdx) (s : State) : Result := .next (s.setI (fontAddr (s.reg x)))

/-- `LD B, Vx`: "store hundreds, tens, units digit" at I, I+1, I+2 (43_address_memory.md R214). -/
def execLdB (x : RegIdx) (s : State) : Result :=
  let b := s.reg x
  .next (((s.writeByte (s.effAddr 0) (hundreds b)).writeByte (s.effAddr 1) (tens b)).writeByte (s.effAddr 2) (units b))

/-- Stores V[k], V[k+1], ... at a + k, a + k + 1, ..., `count` of them, stopping at the memory bound
(43_address_memory.md R215). -/
def dumpFrom (v : Regs) (a : Nat) : Nat → Nat → Memory → Memory
  | _, 0, m => m
  | k, count + 1, m =>
    if Config.memSize ≤ a + k then m
    else dumpFrom v a (k + 1) count (m.write (a + k) (readReg v (BitVec.ofNat 4 k)))

/-- `LD [I], Vx`: "dump registers V0..VX into memory at I" (43_address_memory.md R215). -/
def execLdMemVx (x : RegIdx) (s : State) : Result :=
  .next (s.setMem (dumpFrom s.v (s.effAddr 0) 0 (x.toNat + 1) s.mem))

/-- Loads V[k], V[k+1], ... from a + k, a + k + 1, ..., `count` of them, stopping at the memory bound
(43_address_memory.md R216). -/
def loadFrom (m : Memory) (a : Nat) : Nat → Nat → Regs → Regs
  | _, 0, v => v
  | k, count + 1, v =>
    if Config.memSize ≤ a + k then v
    else loadFrom m a (k + 1) count (writeReg v (BitVec.ofNat 4 k) (m.read (a + k)))

/-- `LD Vx, [I]`: "load registers V0..VX from memory at I" (43_address_memory.md R216). -/
def execLdVxMem (x : RegIdx) (s : State) : Result :=
  .next (s.setRegs (loadFrom s.mem (s.effAddr 0) 0 (x.toNat + 1) s.v))

end Sys2Proof.Machine
end

