-- ==== Sys2Proof/Machine/Flags.lean ====
section
/-! DEFINITION. Every computation of the flag VF (10_state.md R35), each from the source's own test, as the byte
that is written to VF. -/

namespace Sys2Proof.Machine

/-- A truth value as VF holds it: 1 or 0. -/
def flagByte (b : Bool) : Byte := if b then 0x01#8 else 0x00#8

/-- `ADD Vx, Vy`: "flag=1 iff wrapped result < pre-add VX (carry), else 0" (42_arithmetic_logic.md R180). -/
def carryFlag (result vx : Byte) : Byte := flagByte (decide (result.toNat < vx.toNat))

/-- `SUB` and `SUBN`: "flag=0 iff result>original (borrow occurred), else 1" (42_arithmetic_logic.md R181, R183). -/
def noBorrowFlag (result original : Byte) : Byte := flagByte (!decide (original.toNat < result.toNat))

/-- `SHR`: "VX's least-significant bit pre-shift" (42_arithmetic_logic.md R182). -/
def lowBitFlag (vx : Byte) : Byte := flagByte (vx.getLsbD 0)

/-- `SHL`: "VX's most-significant bit pre-shift" (42_arithmetic_logic.md R184). -/
def highBitFlag (vx : Byte) : Byte := flagByte (vx.getLsbD 7)

/-- `DRW`: 1 if any cell went from on to off, else 0 (44_display.md R241). -/
def collisionFlag (hit : Bool) : Byte := flagByte hit

end Sys2Proof.Machine
end

