-- ==== Sys2Proof/Machine/Arithmetic.lean ====
section
/-! DEFINITION. The register arithmetic and logic instructions (42_arithmetic_logic.md). Operands are read once, at
the start; writes follow in the order the rule states them, so that with x = 15 the later write is what VF holds (R170).
DESIGN CHOICE of the spec for x = 15, decision D13, unsafe: notes/assumptions/9.md. Byte arithmetic wraps modulo
256 (R171). -/

namespace Sys2Proof.Machine

/-- `LD Vx, nn`: "set VX=NN" (42_arithmetic_logic.md R174). -/
def execLdImm (x : RegIdx) (nn : Byte) (s : State) : Result := .next (s.setReg x nn)

/-- `ADD Vx, nn`: "VX = (VX+NN) mod 256; does not touch the flag register" (42_arithmetic_logic.md R175). -/
def execAddImm (x : RegIdx) (nn : Byte) (s : State) : Result := .next (s.setReg x (s.reg x + nn))

/-- `LD Vx, Vy`: "set VX=VY" (42_arithmetic_logic.md R176). -/
def execLdReg (x y : RegIdx) (s : State) : Result := .next (s.setReg x (s.reg y))

/-- `OR Vx, Vy`: "bitwise, no flag effect" (42_arithmetic_logic.md R177). -/
def execOrReg (x y : RegIdx) (s : State) : Result := .next (s.setReg x (s.reg x ||| s.reg y))

/-- `AND Vx, Vy`: "bitwise, no flag effect" (42_arithmetic_logic.md R178). -/
def execAndReg (x y : RegIdx) (s : State) : Result := .next (s.setReg x (s.reg x &&& s.reg y))

/-- `XOR Vx, Vy`: "bitwise, no flag effect" (42_arithmetic_logic.md R179). -/
def execXorReg (x y : RegIdx) (s : State) : Result := .next (s.setReg x (s.reg x ^^^ s.reg y))

/-- `ADD Vx, Vy`: result, then flag (42_arithmetic_logic.md R180). -/
def execAddReg (x y : RegIdx) (s : State) : Result :=
  let vx := s.reg x
  let vy := s.reg y
  let r := vx + vy
  .next ((s.setReg x r).setReg vf (carryFlag r vx))

/-- `SUB Vx, Vy`: result, then flag (42_arithmetic_logic.md R181). -/
def execSub (x y : RegIdx) (s : State) : Result :=
  let vx := s.reg x
  let vy := s.reg y
  let r := vx - vy
  .next ((s.setReg x r).setReg vf (noBorrowFlag r vx))

/-- `SHR Vx`: flag, then result; VY is not read (42_arithmetic_logic.md R182). -/
def execShr (x _y : RegIdx) (s : State) : Result :=
  let vx := s.reg x
  .next ((s.setReg vf (lowBitFlag vx)).setReg x (vx >>> 1))

/-- `SUBN Vx, Vy`: result, then flag (42_arithmetic_logic.md R183). -/
def execSubn (x y : RegIdx) (s : State) : Result :=
  let vx := s.reg x
  let vy := s.reg y
  let r := vy - vx
  .next ((s.setReg x r).setReg vf (noBorrowFlag r vy))

/-- `SHL Vx`: flag, then result; VY is not read (42_arithmetic_logic.md R184). -/
def execShl (x _y : RegIdx) (s : State) : Result :=
  let vx := s.reg x
  .next ((s.setReg vf (highBitFlag vx)).setReg x (vx <<< 1))

/-- `RND Vx, nn`: "draw a uniform random byte in [0,255], AND with NN" (42_arithmetic_logic.md R185, R186). -/
def execRnd (x : RegIdx) (nn : Byte) (s : State) : Result :=
  .next (s.nextDraw.setReg x (s.draw8 &&& nn))

end Sys2Proof.Machine
end

