-- ==== Sys2Proof/Syntax.lean ====
section
/-! DEFINITION. The instructions: one constructor per row of the opcode map (30_encoding.md R87,
spec/opcode_table.json). Operands are the decoded fields of R82, each with the width the field has, so that no
term holds a register index or an immediate out of range. An operand named `z`, and the `y` of the two shifts,
is a field the row ignores (R83, R91): no meaning reads it. It is kept so that a word and its instruction
determine each other (DESIGN CHOICE, safe: notes/assumptions/18.md). -/

namespace Sys2Proof

/-- The 34 instructions, in the order of 30_encoding.md R87. -/
inductive Instr where
  /-- `CLS` (row 1, `0..0`). -/
  | cls (z : Byte)
  /-- `RET` (row 2, `0..E`). -/
  | ret (z : Byte)
  /-- `JP nnn` (row 3, `1NNN`). -/
  | jp (nnn : Addr)
  /-- `CALL nnn` (row 4, `2NNN`). -/
  | call (nnn : Addr)
  /-- `SE Vx, nn` (row 5, `3XNN`). -/
  | seImm (x : RegIdx) (nn : Byte)
  /-- `SNE Vx, nn` (row 6, `4XNN`). -/
  | sneImm (x : RegIdx) (nn : Byte)
  /-- `SE Vx, Vy` (row 7, `5XY.`). -/
  | seReg (x y : RegIdx) (z : Nibble)
  /-- `LD Vx, nn` (row 8, `6XNN`). -/
  | ldImm (x : RegIdx) (nn : Byte)
  /-- `ADD Vx, nn` (row 9, `7XNN`). -/
  | addImm (x : RegIdx) (nn : Byte)
  /-- `LD Vx, Vy` (row 10, `8XY0`). -/
  | ldReg (x y : RegIdx)
  /-- `OR Vx, Vy` (row 11, `8XY1`). -/
  | orReg (x y : RegIdx)
  /-- `AND Vx, Vy` (row 12, `8XY2`). -/
  | andReg (x y : RegIdx)
  /-- `XOR Vx, Vy` (row 13, `8XY3`). -/
  | xorReg (x y : RegIdx)
  /-- `ADD Vx, Vy` (row 14, `8XY4`). -/
  | addReg (x y : RegIdx)
  /-- `SUB Vx, Vy` (row 15, `8XY5`). -/
  | sub (x y : RegIdx)
  /-- `SHR Vx` (row 16, `8XY6`). -/
  | shr (x y : RegIdx)
  /-- `SUBN Vx, Vy` (row 17, `8XY7`). -/
  | subn (x y : RegIdx)
  /-- `SHL Vx` (row 18, `8XYE`). -/
  | shl (x y : RegIdx)
  /-- `SNE Vx, Vy` (row 19, `9XY.`). -/
  | sneReg (x y : RegIdx) (z : Nibble)
  /-- `LD I, nnn` (row 20, `ANNN`). -/
  | ldI (nnn : Addr)
  /-- `JP V0, nnn` (row 21, `BNNN`). -/
  | jpV0 (nnn : Addr)
  /-- `RND Vx, nn` (row 22, `CXNN`). -/
  | rnd (x : RegIdx) (nn : Byte)
  /-- `DRW Vx, Vy, n` (row 23, `DXYN`). -/
  | drw (x y : RegIdx) (n : Nibble)
  /-- `SKP Vx` (row 24, `EX9E`). -/
  | skp (x : RegIdx)
  /-- `SKNP Vx` (row 25, `EXA1`). -/
  | sknp (x : RegIdx)
  /-- `LD Vx, DT` (row 26, `FX07`). -/
  | ldVxDt (x : RegIdx)
  /-- `LD Vx, K` (row 27, `FX0A`). -/
  | ldVxK (x : RegIdx)
  /-- `LD DT, Vx` (row 28, `FX15`). -/
  | ldDtVx (x : RegIdx)
  /-- `LD ST, Vx` (row 29, `FX18`). -/
  | ldStVx (x : RegIdx)
  /-- `ADD I, Vx` (row 30, `FX1E`). -/
  | addI (x : RegIdx)
  /-- `LD F, Vx` (row 31, `FX29`). -/
  | ldF (x : RegIdx)
  /-- `LD B, Vx` (row 32, `FX33`). -/
  | ldB (x : RegIdx)
  /-- `LD [I], Vx` (row 33, `FX55`). -/
  | ldMemVx (x : RegIdx)
  /-- `LD Vx, [I]` (row 34, `FX65`). -/
  | ldVxMem (x : RegIdx)
  deriving DecidableEq, Repr

end Sys2Proof
end

