-- ==== Sys2Proof/WellFormed.lean ====
section
/-! DEFINITION. Which words are instructions. Every term of `Instr` is well formed by its types (an index has 4
bits, an address 12); what can be ill formed is a 16-bit word, and 30_encoding.md R90 lists the ill-formed ones
family by family. The checks below are that list, written without the decoder, so that the decoder of R93 can be
held against it. -/

namespace Sys2Proof

/-- Family 0x0: `n` is 0x0 or 0xE (30_encoding.md R90, first row). -/
def wellFormedFamily0 (n : Nibble) : Bool := n = 0x0#4 || n = 0xE#4

/-- Family 0x8: `n` is none of 0x8, 0x9, 0xA, 0xB, 0xC, 0xD, 0xF (30_encoding.md R90, second row). -/
def wellFormedFamily8 (n : Nibble) : Bool :=
  !([0x8#4, 0x9#4, 0xA#4, 0xB#4, 0xC#4, 0xD#4, 0xF#4] : List Nibble).contains n

/-- Family 0xE: `nn` is 0x9E or 0xA1 (30_encoding.md R90, third row). -/
def wellFormedFamilyE (nn : Byte) : Bool := nn = 0x9E#8 || nn = 0xA1#8

/-- Family 0xF: `nn` is one of the nine codes of the map (30_encoding.md R90, fourth row). -/
def wellFormedFamilyF (nn : Byte) : Bool :=
  ([0x07#8, 0x0A#8, 0x15#8, 0x18#8, 0x1E#8, 0x29#8, 0x33#8, 0x55#8, 0x65#8] : List Byte).contains nn

/-- Is the word an instruction, that is in none of the rows of 30_encoding.md R90? The families without a
secondary key have no ill-formed word (R86). -/
def wellFormedWord (w : Word) : Bool :=
  if w.toNat / 4096 = 0x0 then wellFormedFamily0 (BitVec.ofNat 4 (w.toNat % 16))
  else if w.toNat / 4096 = 0x8 then wellFormedFamily8 (BitVec.ofNat 4 (w.toNat % 16))
  else if w.toNat / 4096 = 0xE then wellFormedFamilyE (BitVec.ofNat 8 (w.toNat % 256))
  else if w.toNat / 4096 = 0xF then wellFormedFamilyF (BitVec.ofNat 8 (w.toNat % 256))
  else true

end Sys2Proof
end

