-- ==== Sys2Proof/Decode.lean ====
section
/-! DEFINITION. The decoder (30_encoding.md R81, R82, R85, R86, R93), the encoder, and the opcode map as a table
of rows (R87). The family numbers and secondary codes are the spec's, "from general knowledge, not in source"
(decision D2): PRESUMED, unsafe, notes/assumptions/3.md. -/

namespace Sys2Proof

/-! ### Bytes and fields of a word -/

/-- The word of two fetched bytes, the byte at the lower address being the high one (20_memory.md R55).
PRESUMED (decision D1), unsafe: notes/assumptions/2.md. -/
def wordOfBytes (hi lo : Byte) : Word := hi ++ lo

/-- The byte of a word that lies at the lower address (20_memory.md R55, R56). -/
def Word.hiByte (w : Word) : Byte := w.extractLsb' 8 8

/-- The byte of a word that lies at the higher address (20_memory.md R55, R56). -/
def Word.loByte (w : Word) : Byte := w.extractLsb' 0 8

/-- `f = w[15:12]`, the "top nibble (family selector)" (30_encoding.md R82). -/
def Word.fieldF (w : Word) : Nibble := w.extractLsb' 12 4

/-- `x = w[11:8]`, the "second nibble (register index X)" (30_encoding.md R82). -/
def Word.fieldX (w : Word) : RegIdx := w.extractLsb' 8 4

/-- `y = w[7:4]`, the "third nibble (register index Y)" (30_encoding.md R82). -/
def Word.fieldY (w : Word) : RegIdx := w.extractLsb' 4 4

/-- `n = w[3:0]`, the "low nibble (N)" (30_encoding.md R82). -/
def Word.fieldN (w : Word) : Nibble := w.extractLsb' 0 4

/-- `nn = w[7:0]`, the "low byte (NN)" (30_encoding.md R82). -/
def Word.fieldNN (w : Word) : Byte := w.extractLsb' 0 8

/-- `nnn = w[11:0]`, the "low 12 bits (NNN)" (30_encoding.md R82). -/
def Word.fieldNNN (w : Word) : Addr := w.extractLsb' 0 12

/-- Bits 11:4, which family 0x0 ignores (30_encoding.md R83, R86). -/
def Word.ignored0 (w : Word) : Byte := w.extractLsb' 4 8

/-! ### Decoding -/

/-- Why a word is no instruction. -/
inductive Reject where
  /-- "An unrecognized top-level family" (30_encoding.md R88): no 16-bit word is one, since R87 uses every top
  nibble; the arm stands because the spec keeps the fault (90_conflicts.md C2). -/
  | unknownFamily
  /-- "An unrecognized secondary code within a recognized family" (30_encoding.md R89, R90). -/
  | unrecognizedSecondary
  deriving DecidableEq, Repr

/-- Second level of family 0x0, keyed on the low nibble (30_encoding.md R86, R93). -/
def decodeFamily0 (w : Word) : Except Reject Instr :=
  match w.fieldN with
  | 0x0#4 => .ok (.cls w.ignored0)
  | 0xE#4 => .ok (.ret w.ignored0)
  | _ => .error .unrecognizedSecondary

/-- Second level of family 0x8, keyed on the low nibble (30_encoding.md R86, R93). -/
def decodeFamily8 (w : Word) : Except Reject Instr :=
  match w.fieldN with
  | 0x0#4 => .ok (.ldReg w.fieldX w.fieldY)
  | 0x1#4 => .ok (.orReg w.fieldX w.fieldY)
  | 0x2#4 => .ok (.andReg w.fieldX w.fieldY)
  | 0x3#4 => .ok (.xorReg w.fieldX w.fieldY)
  | 0x4#4 => .ok (.addReg w.fieldX w.fieldY)
  | 0x5#4 => .ok (.sub w.fieldX w.fieldY)
  | 0x6#4 => .ok (.shr w.fieldX w.fieldY)
  | 0x7#4 => .ok (.subn w.fieldX w.fieldY)
  | 0xE#4 => .ok (.shl w.fieldX w.fieldY)
  | _ => .error .unrecognizedSecondary

/-- Second level of family 0xE, keyed on the low byte (30_encoding.md R86, R93). -/
def decodeFamilyE (w : Word) : Except Reject Instr :=
  match w.fieldNN with
  | 0x9E#8 => .ok (.skp w.fieldX)
  | 0xA1#8 => .ok (.sknp w.fieldX)
  | _ => .error .unrecognizedSecondary

/-- Second level of family 0xF, keyed on the low byte (30_encoding.md R86, R93). -/
def decodeFamilyF (w : Word) : Except Reject Instr :=
  match w.fieldNN with
  | 0x07#8 => .ok (.ldVxDt w.fieldX)
  | 0x0A#8 => .ok (.ldVxK w.fieldX)
  | 0x15#8 => .ok (.ldDtVx w.fieldX)
  | 0x18#8 => .ok (.ldStVx w.fieldX)
  | 0x1E#8 => .ok (.addI w.fieldX)
  | 0x29#8 => .ok (.ldF w.fieldX)
  | 0x33#8 => .ok (.ldB w.fieldX)
  | 0x55#8 => .ok (.ldMemVx w.fieldX)
  | 0x65#8 => .ok (.ldVxMem w.fieldX)
  | _ => .error .unrecognizedSecondary

/-- The decoder, total on 16-bit words (30_encoding.md R85, R93). -/
def decode (w : Word) : Except Reject Instr :=
  match w.fieldF with
  | 0x0#4 => decodeFamily0 w
  | 0x1#4 => .ok (.jp w.fieldNNN)
  | 0x2#4 => .ok (.call w.fieldNNN)
  | 0x3#4 => .ok (.seImm w.fieldX w.fieldNN)
  | 0x4#4 => .ok (.sneImm w.fieldX w.fieldNN)
  | 0x5#4 => .ok (.seReg w.fieldX w.fieldY w.fieldN)
  | 0x6#4 => .ok (.ldImm w.fieldX w.fieldNN)
  | 0x7#4 => .ok (.addImm w.fieldX w.fieldNN)
  | 0x8#4 => decodeFamily8 w
  | 0x9#4 => .ok (.sneReg w.fieldX w.fieldY w.fieldN)
  | 0xA#4 => .ok (.ldI w.fieldNNN)
  | 0xB#4 => .ok (.jpV0 w.fieldNNN)
  | 0xC#4 => .ok (.rnd w.fieldX w.fieldNN)
  | 0xD#4 => .ok (.drw w.fieldX w.fieldY w.fieldN)
  | 0xE#4 => decodeFamilyE w
  | 0xF#4 => decodeFamilyF w
  | _ => .error .unknownFamily

/-- A wider input is decoded modulo 65536: "upper bits beyond 16, if any, discarded" (30_encoding.md R81). -/
def decodeWide (w : Nat) : Except Reject Instr := decode (BitVec.ofNat 16 w)

/-- Why a list of bytes does not begin with an instruction. -/
inductive ByteReject where
  /-- Fewer than the two bytes of a word (30_encoding.md R80) are there. -/
  | truncated
  /-- The first two bytes are a word that is no instruction. -/
  | word (r : Reject)
  deriving DecidableEq, Repr

/-- The instruction at the front of a list of bytes, in address order, and the bytes after it: every instruction
is one 16-bit word (30_encoding.md R80), its high byte first (20_memory.md R55). -/
def decodeBytes : List Byte → Except ByteReject (Instr × List Byte)
  | hi :: lo :: rest =>
    match decode (wordOfBytes hi lo) with
    | .ok i => .ok (i, rest)
    | .error r => .error (.word r)
  | _ => .error .truncated

/-- The instruction the decoder reads from the word whose bits are `w`, of which the table gives `nbits`; the
bits above are zero. The two bytes are laid out as memory holds them (20_memory.md R55). -/
def decodeTableWord (nbits w : Nat) : Option Instr :=
  let word : Word := BitVec.ofNat 16 (w % 2 ^ nbits)
  match decodeBytes [word.hiByte, word.loByte] with
  | .ok (i, _) => some i
  | .error _ => none

/-! ### Encoding -/

/-- The word of an instruction, field by field from the format of its row (30_encoding.md R83, R87): the family
at bits 15:12, then the operands, then the secondary key. -/
def encode : Instr → Word
  | .cls z => 0x0#4 ++ z ++ 0x0#4
  | .ret z => 0x0#4 ++ z ++ 0xE#4
  | .jp nnn => 0x1#4 ++ nnn
  | .call nnn => 0x2#4 ++ nnn
  | .seImm x nn => 0x3#4 ++ x ++ nn
  | .sneImm x nn => 0x4#4 ++ x ++ nn
  | .seReg x y z => 0x5#4 ++ x ++ y ++ z
  | .ldImm x nn => 0x6#4 ++ x ++ nn
  | .addImm x nn => 0x7#4 ++ x ++ nn
  | .ldReg x y => 0x8#4 ++ x ++ y ++ 0x0#4
  | .orReg x y => 0x8#4 ++ x ++ y ++ 0x1#4
  | .andReg x y => 0x8#4 ++ x ++ y ++ 0x2#4
  | .xorReg x y => 0x8#4 ++ x ++ y ++ 0x3#4
  | .addReg x y => 0x8#4 ++ x ++ y ++ 0x4#4
  | .sub x y => 0x8#4 ++ x ++ y ++ 0x5#4
  | .shr x y => 0x8#4 ++ x ++ y ++ 0x6#4
  | .subn x y => 0x8#4 ++ x ++ y ++ 0x7#4
  | .shl x y => 0x8#4 ++ x ++ y ++ 0xE#4
  | .sneReg x y z => 0x9#4 ++ x ++ y ++ z
  | .ldI nnn => 0xA#4 ++ nnn
  | .jpV0 nnn => 0xB#4 ++ nnn
  | .rnd x nn => 0xC#4 ++ x ++ nn
  | .drw x y n => 0xD#4 ++ x ++ y ++ n
  | .skp x => 0xE#4 ++ x ++ 0x9E#8
  | .sknp x => 0xE#4 ++ x ++ 0xA1#8
  | .ldVxDt x => 0xF#4 ++ x ++ 0x07#8
  | .ldVxK x => 0xF#4 ++ x ++ 0x0A#8
  | .ldDtVx x => 0xF#4 ++ x ++ 0x15#8
  | .ldStVx x => 0xF#4 ++ x ++ 0x18#8
  | .addI x => 0xF#4 ++ x ++ 0x1E#8
  | .ldF x => 0xF#4 ++ x ++ 0x29#8
  | .ldB x => 0xF#4 ++ x ++ 0x33#8
  | .ldMemVx x => 0xF#4 ++ x ++ 0x55#8
  | .ldVxMem x => 0xF#4 ++ x ++ 0x65#8

/-- The two bytes of an instruction in address order (20_memory.md R55). -/
def encodeBytes (i : Instr) : List Byte := [(encode i).hiByte, (encode i).loByte]

/-! ### The opcode map -/

/-- The row number an instruction has in the opcode map (30_encoding.md R87). -/
def Instr.row : Instr → Nat
  | .cls .. => 1 | .ret .. => 2 | .jp .. => 3 | .call .. => 4 | .seImm .. => 5 | .sneImm .. => 6
  | .seReg .. => 7 | .ldImm .. => 8 | .addImm .. => 9 | .ldReg .. => 10 | .orReg .. => 11 | .andReg .. => 12
  | .xorReg .. => 13 | .addReg .. => 14 | .sub .. => 15 | .shr .. => 16 | .subn .. => 17 | .shl .. => 18
  | .sneReg .. => 19 | .ldI .. => 20 | .jpV0 .. => 21 | .rnd .. => 22 | .drw .. => 23 | .skp .. => 24
  | .sknp .. => 25 | .ldVxDt .. => 26 | .ldVxK .. => 27 | .ldDtVx .. => 28 | .ldStVx .. => 29 | .addI .. => 30
  | .ldF .. => 31 | .ldB .. => 32 | .ldMemVx .. => 33 | .ldVxMem .. => 34

/-- The rows of families 0x0 to 0x7 as (number, mask, match) (30_encoding.md R87). -/
def opcodeRowsLow : List (Nat × Word × Word) :=
  [(1, 0xF00F#16, 0x0000#16), (2, 0xF00F#16, 0x000E#16), (3, 0xF000#16, 0x1000#16), (4, 0xF000#16, 0x2000#16),
   (5, 0xF000#16, 0x3000#16), (6, 0xF000#16, 0x4000#16), (7, 0xF000#16, 0x5000#16), (8, 0xF000#16, 0x6000#16),
   (9, 0xF000#16, 0x7000#16)]

/-- The rows of families 0x8 to 0xD as (number, mask, match) (30_encoding.md R87). -/
def opcodeRowsMid : List (Nat × Word × Word) :=
  [(10, 0xF00F#16, 0x8000#16), (11, 0xF00F#16, 0x8001#16), (12, 0xF00F#16, 0x8002#16), (13, 0xF00F#16, 0x8003#16),
   (14, 0xF00F#16, 0x8004#16), (15, 0xF00F#16, 0x8005#16), (16, 0xF00F#16, 0x8006#16), (17, 0xF00F#16, 0x8007#16),
   (18, 0xF00F#16, 0x800E#16), (19, 0xF000#16, 0x9000#16), (20, 0xF000#16, 0xA000#16), (21, 0xF000#16, 0xB000#16),
   (22, 0xF000#16, 0xC000#16), (23, 0xF000#16, 0xD000#16)]

/-- The rows of families 0xE and 0xF as (number, mask, match) (30_encoding.md R87). -/
def opcodeRowsHigh : List (Nat × Word × Word) :=
  [(24, 0xF0FF#16, 0xE09E#16), (25, 0xF0FF#16, 0xE0A1#16), (26, 0xF0FF#16, 0xF007#16), (27, 0xF0FF#16, 0xF00A#16),
   (28, 0xF0FF#16, 0xF015#16), (29, 0xF0FF#16, 0xF018#16), (30, 0xF0FF#16, 0xF01E#16), (31, 0xF0FF#16, 0xF029#16),
   (32, 0xF0FF#16, 0xF033#16), (33, 0xF0FF#16, 0xF055#16), (34, 0xF0FF#16, 0xF065#16)]

/-- The opcode map: "`match`/`mask` give the decode test `(w AND mask) = match`" (30_encoding.md R87). -/
def opcodeMap : List (Nat × Word × Word) := opcodeRowsLow ++ opcodeRowsMid ++ opcodeRowsHigh

end Sys2Proof
end

