-- ==== Sys2Proof/Machine/ControlFlow.lean ====
section
/-! DEFINITION. The control-flow instructions (41_control_flow.md). Each runs with pc already advanced to pc0 + 2
(40_cycle_and_interface.md R112). A skip gives its own word, which `encode` makes from its operands, to the fault it
may raise (R140). -/

namespace Sys2Proof.Machine

/-- `RET`: "pop call stack into program counter; no-op if stack empty" (41_control_flow.md R142). Bits 11:4 are
ignored. -/
def execRet (_z : Byte) (s : State) : Result :=
  match s.top with
  | some r => .next (s.dropTop.setPc r)
  | none => .next s

/-- `JP nnn`: "program counter = NNN" (41_control_flow.md R143). -/
def execJp (nnn : Addr) (s : State) : Result := .next (s.setPc (target nnn))

/-- `CALL nnn`: "push current program counter, then jump" (41_control_flow.md R144). -/
def execCall (nnn : Addr) (s : State) : Result := .next ((s.push s.pc).setPc (target nnn))

/-- `SE Vx, nn`: skip "if VX==NN" (41_control_flow.md R145). -/
def execSeImm (x : RegIdx) (nn : Byte) (s : State) : Result :=
  .next (s.skipIf (decide (s.reg x = nn)) (encode (.seImm x nn)))

/-- `SNE Vx, nn`: skip "if VX!=NN" (41_control_flow.md R146). -/
def execSneImm (x : RegIdx) (nn : Byte) (s : State) : Result :=
  .next (s.skipIf (decide (s.reg x ≠ nn)) (encode (.sneImm x nn)))

/-- `SE Vx, Vy`: skip "if VX==VY" (41_control_flow.md R147). Bits 3:0 are ignored. -/
def execSeReg (x y : RegIdx) (z : Nibble) (s : State) : Result :=
  .next (s.skipIf (decide (s.reg x = s.reg y)) (encode (.seReg x y z)))

/-- `SNE Vx, Vy`: skip "if VX!=VY" (41_control_flow.md R148). Bits 3:0 are ignored. -/
def execSneReg (x y : RegIdx) (z : Nibble) (s : State) : Result :=
  .next (s.skipIf (decide (s.reg x ≠ s.reg y)) (encode (.sneReg x y z)))

/-- `JP V0, nnn`: "program counter = (V0+NNN) mod 4096" (41_control_flow.md R150). -/
def execJpV0 (nnn : Addr) (s : State) : Result := .next (s.setPc (offsetTarget (s.reg v0) nnn))

end Sys2Proof.Machine
end

