-- ==== Sys2Proof/Machine/Display.lean ====
section
/-! DEFINITION. The display instructions (44_display.md), the only writers of the framebuffer (R244). A drawing in
progress is a pair: the framebuffer so far, and whether a cell has gone from on to off. -/

namespace Sys2Proof.Machine

/-- `CLS`: "set every framebuffer cell to off" (44_display.md R240). Bits 11:4 are ignored. -/
def execCls (_z : Byte) (s : State) : Result := .next (s.setFb Framebuffer.allOff)

/-- Inverts one cell and notes the collision if it was on (44_display.md R241). -/
def plot (x : Fin 64) (y : Fin 32) (p : Framebuffer × Bool) : Framebuffer × Bool :=
  (Framebuffer.setPixel p.1 x y (!Framebuffer.pixel p.1 x y), p.2 || Framebuffer.pixel p.1 x y)

/-- One sprite column: "if b[7 - c] = 1" the cell `(x0 + c) mod 64` of the row is inverted (44_display.md R241). -/
def drawCell (b : Byte) (x0 : Nat) (y : Fin 32) (p : Framebuffer × Bool) (c : Nat) : Framebuffer × Bool :=
  if spriteBit b c then plot (column x0 c) y p else p

/-- One sprite row: the 8 columns of a byte (44_display.md R241). -/
def drawRow (b : Byte) (x0 : Nat) (y : Fin 32) (p : Framebuffer × Bool) : Framebuffer × Bool :=
  (List.range 8).foldl (drawCell b x0 y) p

/-- The whole sprite: n rows, the byte of row r read at a + r (44_display.md R241), 0x00 past memory (20_memory.md
R53). -/
def drawSprite (m : Memory) (a x0 y0 n : Nat) (p : Framebuffer × Bool) : Framebuffer × Bool :=
  (List.range n).foldl (fun p r => drawRow (m.read (a + r)) x0 (row y0 r) p) p

/-- `DRW Vx, Vy, n` (44_display.md R241). The coordinates are read before the flag is reset: DESIGN CHOICE of the
spec for x or y = 15, decision D14, unsafe, notes/assumptions/10.md. -/
def execDrw (x y : RegIdx) (n : Nibble) (s : State) : Result :=
  let x0 := s.reg x
  let y0 := s.reg y
  let a := s.effAddr 0
  let s1 := s.setReg vf (collisionFlag false)
  let drawn := drawSprite s1.mem a x0.toNat y0.toNat n.toNat (s1.fb, false)
  .next ((s1.setFb drawn.1).setReg vf (collisionFlag drawn.2))

end Sys2Proof.Machine
end

