-- ==== Sys2Proof/Machine/KeypadTimer.lean ====
section
/-! DEFINITION. The keypad and timer instructions (45_keypad_timer.md). -/

namespace Sys2Proof.Machine

/-- `SKP Vx`: "skip if key VX pressed" (45_keypad_timer.md R260). -/
def execSkp (x : RegIdx) (s : State) : Result := .next (s.skipIf (s.pressed (s.reg x)) (encode (.skp x)))

/-- `SKNP Vx`: skip if key VX is not pressed (45_keypad_timer.md R261). -/
def execSknp (x : RegIdx) (s : State) : Result := .next (s.skipIf (!s.pressed (s.reg x)) (encode (.sknp x)))

/-- `LD Vx, DT`: "VX = delay timer" (45_keypad_timer.md R262). -/
def execLdVxDt (x : RegIdx) (s : State) : Result := .next (s.setReg x s.dt)

/-- `LD Vx, K`: "if no key pressed: do not advance (re-fetch same instruction next cycle); else store the numerically
smallest pressed key id in VX" (45_keypad_timer.md R263). -/
def execLdVxK (x : RegIdx) (s : State) : Result :=
  match s.lowestKey with
  | some k => .next (s.setReg x k)
  | none => .next (s.setPc (s.pc - 2#16))

/-- `LD DT, Vx`: "delay timer = VX" (45_keypad_timer.md R264). -/
def execLdDtVx (x : RegIdx) (s : State) : Result := .next (s.setDt (s.reg x))

/-- `LD ST, Vx`: "sound timer = VX", and a tone request if it is positive (45_keypad_timer.md R265,
40_cycle_and_interface.md R122). The list `tones` is the model's record of that output: DESIGN CHOICE, safe,
notes/assumptions/8.md. -/
def execLdStVx (x : RegIdx) (s : State) : Result :=
  let b := s.reg x
  let s1 := s.setSt b
  if 0 < b.toNat then .next (s1.emitTone b) else .next s1

end Sys2Proof.Machine
end

