-- ==== Sys2Proof/Machine/Cycle.lean ====
section
/-! DEFINITION. The cycle driver `emulateCycle` (40_cycle_and_interface.md R110 to R117), for either value of the
configuration switch. -/

namespace Sys2Proof.Machine

/-- Fetch: the word at the program counter, high byte at the lower address (40_cycle_and_interface.md R111). -/
def State.fetchWord (s : State) : Word := wordOfBytes (s.readByte s.pc.toNat) (s.readByte (s.pc.toNat + 1))

/-- The advance `pc <- pc0 + 2` (40_cycle_and_interface.md R112). -/
def State.advance (s : State) : State := s.setPc (s.pc + 2#16)

/-- The advance with its bounds check, then execution: BoundsFault if `pc0 + 2 >= MEM_SIZE`
(40_cycle_and_interface.md R113). DESIGN CHOICE of the spec for the exact bound, decision D5, unsafe:
notes/assumptions/4.md. -/
def advanceThen (run : State → Result) (w : Word) (s : State) : Result :=
  if Config.boundsLimit ≤ s.pc.toNat + 2 then .next (s.takeFault .boundsFault s.pc w) else run s.advance

/-- Does a word that is no instruction raise DecodeFault? An unknown family always does (30_encoding.md R88), an
unrecognized secondary code only under STRICT_SECONDARY (R89, R92). DESIGN CHOICE of the spec, decision D12, unsafe
with the option set: notes/assumptions/15.md. -/
def rejectFaults (cfg : Config) : Reject → Bool
  | .unknownFamily => true
  | .unrecognizedSecondary => cfg.strictSecondary

/-- Executing an unrecognized word: "no operation being executed for that cycle" (30_encoding.md R89). -/
def execUnrecognized (s : State) : Result := .next s

/-- The cycle of a running core: fetch, decode, advance, execute (40_cycle_and_interface.md R115). -/
def runCycle (cfg : Config) (s : State) : Result :=
  match decode s.fetchWord with
  | .ok i => advanceThen (exec i) s.fetchWord s
  | .error r =>
    if rejectFaults cfg r then .next (s.takeFault .decodeFault s.pc s.fetchWord)
    else advanceThen execUnrecognized s.fetchWord s

/-- `emulateCycle` (40_cycle_and_interface.md R115): a halted core returns its recorded fault and changes nothing
(R116). -/
def cycle (cfg : Config) (s : State) : Result :=
  match s.fault with
  | some f => .fault (.halted f)
  | none => runCycle cfg s

/-- The state with a word stored at its program counter, high byte first (20_memory.md R55). -/
def State.placeWord (s : State) (w : Word) : State :=
  (s.writeByte s.pc.toNat w.hiByte).writeByte (s.pc.toNat + 1) w.loByte

end Sys2Proof.Machine
end

