-- ==== Sys2Proof/Machine/Step.lean ====
section
/-! DEFINITION. One step of the machine: one `emulateCycle` of the canonical configuration
(40_cycle_and_interface.md R110, 00_scope.md R8). -/

namespace Sys2Proof.Machine

/-- One step. -/
def step (s : State) : Host.Outcome State Fault Refusal := cycle Config.canonical s

/-- The state with an instruction's word stored where `step` fetches next, which stands for the host's `load`
(40_cycle_and_interface.md R123; notes/assumptions/16.md). -/
def State.withFetchWord (s : State) (nbits w : Nat) : State := s.placeWord (BitVec.ofNat 16 (w % 2 ^ nbits))

end Sys2Proof.Machine
end

