-- ==== Sys2Proof/Machine/Interface.lean ====
section
/-! DEFINITION. The host interface: the six transactions of 40_cycle_and_interface.md R127, each atomic on the state
(20_memory.md R59), with their replies. -/

namespace Sys2Proof.Machine

/-- A host argument that should be an integer: `load` rejects one that is not (40_cycle_and_interface.md R123). -/
inductive HostArg where
  /-- An integer. -/
  | integer (z : Int)
  /-- Anything else. -/
  | other
  deriving DecidableEq, Repr

/-- The host transactions (40_cycle_and_interface.md R127). -/
inductive Transaction where
  /-- One cycle (R115). -/
  | emulateCycle
  /-- One timer tick (R120). -/
  | decrementTimers
  /-- Copies bytes into memory (R123). -/
  | load (bytes : List Int) (offset : HostArg)
  /-- Key `id` is pressed (R124). -/
  | setKeyPressed (id : Int)
  /-- Key `id` is released (R125). -/
  | setKeyReleased (id : Int)
  /-- A copy of the framebuffer (R126). -/
  | readFramebuffer
  deriving DecidableEq, Repr

/-- What a transaction returns (40_cycle_and_interface.md R127). -/
inductive Reply where
  /-- OK, or nothing to return. -/
  | ok
  /-- A cycle's OK, with the tone requests it emitted (R122). -/
  | cycleOk (tones : List Byte)
  /-- A cycle's fatal fault with (pc0, w), raised by it or recorded before it (R115, R116). -/
  | fatal (f : FaultRecord)
  /-- LoadRangeError (60_exceptions.md R305). -/
  | loadRangeError
  /-- InputValidationError (60_exceptions.md R306). -/
  | inputValidationError
  /-- The framebuffer snapshot: row 0 first, column 0 first in a row (R126). -/
  | framebuffer (grid : Framebuffer)
  /-- The model refused the cycle. No instruction is refused, so no state gets this reply. Safe. -/
  | refused (r : Refusal)
  deriving DecidableEq, Repr

/-- The numeric code of a reply (60_exceptions.md R301). DESIGN CHOICE of the spec, decision D11, safe:
notes/assumptions/26.md. -/
def Reply.code : Reply → Nat
  | .fatal f => match f.kind with
    | .decodeFault => 1
    | .boundsFault => 2
  | .loadRangeError => 3
  | .inputValidationError => 4
  | _ => 0

/-- `emulateCycle()` as a transaction: the state after and the reply (40_cycle_and_interface.md R115). A halted core
keeps its state (R116). -/
def emulateCycle (cfg : Config) (s : State) : State × Reply :=
  match cycle cfg s with
  | .next t =>
    match t.fault with
    | some f => (t, .fatal f)
    | none => (t, .cycleOk (t.tones.drop s.tones.length))
  | .fault (.halted f) => (s, .fatal f)
  | .refused r => (s, .refused r)

/-- One timer after a tick: down by one if positive (40_cycle_and_interface.md R120, R121). -/
def tickTimer (b : Byte) : Byte := if 0 < b.toNat then b - 1#8 else b

/-- `decrementTimers()` (40_cycle_and_interface.md R120). -/
def decrementTimers (s : State) : State := (s.setDt (tickTimer s.dt)).setSt (tickTimer s.st)

/-- Is an integer a byte, 0 to 255 (40_cycle_and_interface.md R123)? -/
def isByte (z : Int) : Bool := decide (0 ≤ z) && decide (z < 256)

/-- "for k in 0 .. count-1: mem[offset + k] <- bytes[k]" (40_cycle_and_interface.md R123). -/
def copyBytes : Memory → Nat → List Byte → Memory
  | m, _, [] => m
  | m, a, b :: bs => copyBytes (m.write a b) (a + 1) bs

/-- `load(bytes, offset)` (40_cycle_and_interface.md R123): the argument check first, then the range check, then the
copy of `max(0, min(len, MEM_SIZE - offset))` bytes. DESIGN CHOICE of the spec for the checks' order, decision D21,
unsafe for malformed calls: notes/assumptions/17.md. -/
def load (bytes : List Int) (offset : HostArg) (s : State) : State × Reply :=
  match offset with
  | .other => (s, .inputValidationError)
  | .integer o =>
    if bytes.all isByte then
      if o < 0 then (s, .loadRangeError)
      else
        let count := min bytes.length (Config.memSize - o.toNat)
        (s.setMem (copyBytes s.mem o.toNat ((bytes.take count).map (BitVec.ofInt 8))), .ok)
    else (s, .inputValidationError)

/-- Is an integer a key id, 0 to 15 (40_cycle_and_interface.md R124)? -/
def isKeyId (id : Int) : Bool := decide (0 ≤ id) && decide (id < 16)

/-- The keypad set with one key only. -/
def keyBit (id : Int) : BitVec 16 := BitVec.twoPow 16 id.toNat

/-- `setKeyPressed(id)` (40_cycle_and_interface.md R124). -/
def setKeyPressed (id : Int) (s : State) : State × Reply :=
  if isKeyId id then (s.setKeys (s.keys ||| keyBit id), .ok) else (s, .inputValidationError)

/-- `setKeyReleased(id)` (40_cycle_and_interface.md R125). -/
def setKeyReleased (id : Int) (s : State) : State × Reply :=
  if isKeyId id then (s.setKeys (s.keys &&& ~~~keyBit id), .ok) else (s, .inputValidationError)

/-- One host transaction on a state (40_cycle_and_interface.md R127). All but the cycle work on a halted core too
(decision D9, notes/assumptions/17.md). -/
def transact (cfg : Config) (tr : Transaction) (s : State) : State × Reply :=
  match tr with
  | .emulateCycle => emulateCycle cfg s
  | .decrementTimers => (decrementTimers s, .ok)
  | .load bytes offset => load bytes offset s
  | .setKeyPressed id => setKeyPressed id s
  | .setKeyReleased id => setKeyReleased id s
  | .readFramebuffer => (s, .framebuffer s.fb)

/-- The state after a list of host transactions, first one first: the host "may call any transaction in any order"
(40_cycle_and_interface.md R128). -/
def runTransactions (cfg : Config) (trs : List Transaction) (s : State) : State :=
  trs.foldl (fun s tr => (transact cfg tr s).1) s

end Sys2Proof.Machine
end

