-- ==== Sys2Proof/Safety.lean ====
section
/-! DEFINITION. The terms claims use: the parts a state has, what it means that an operation changes no other part,
which parts each instruction writes by its rule, and the invariant of a state between transactions. -/

namespace Sys2Proof.Machine

/-- The parts of a state, down to one register, one pixel and one byte of memory. -/
inductive Part where
  | reg (x : RegIdx)
  | i
  | pc
  | stack
  | dt
  | st
  | keys
  | pixel (x : Fin 64) (y : Fin 32)
  | byte (a : Nat)
  | fault
  | draws
  | tones
  deriving DecidableEq, Repr

/-- Two states agree on a part. A byte of memory is what the model reads at its address. -/
def Part.agrees (s t : State) : Part → Prop
  | .reg x => t.reg x = s.reg x
  | .i => t.i = s.i
  | .pc => t.pc = s.pc
  | .stack => t.stack = s.stack
  | .dt => t.dt = s.dt
  | .st => t.st = s.st
  | .keys => t.keys = s.keys
  | .pixel x y => t.pixel x y = s.pixel x y
  | .byte a => t.readByte a = s.readByte a
  | .fault => t.fault = s.fault
  | .draws => t.draws = s.draws
  | .tones => t.tones = s.tones

/-- Going from `s` to `t` changes nothing outside the parts `written`: every register, every byte of memory, every
pixel and every other part that `written` does not hold is the same after as before. -/
def OnlyWrites (s t : State) (written : Part → Prop) : Prop := ∀ p, ¬ written p → p.agrees s t

/-- The core runs: no fatal fault is recorded (60_exceptions.md R304). -/
def State.Running (s : State) : Prop := s.fault = none

/-- The advance stays inside memory (40_cycle_and_interface.md R113). -/
def State.CanAdvance (s : State) : Prop := s.pc.toNat + 2 < Config.boundsLimit

/-- The parts a skip instruction may write: the program counter, and the fault status only where the skip would pass
the end of memory (41_control_flow.md R140). -/
def skipWrites (s : State) (p : Part) : Prop := p = .pc ∨ (p = .fault ∧ Config.boundsLimit ≤ s.pc.toNat + 2)

/-- The parts each instruction's rule writes, when it executes in state `s` (the "rule" column of
30_encoding.md R87). Memory addresses are the effective addresses of 43_address_memory.md R211; pixels are the cells
of the sprite's n rows and 8 columns, wrapped (44_display.md R241). -/
def writes (s : State) : Instr → Part → Prop
  | .cls _, p => ∃ x y, p = .pixel x y
  | .ret _, p => p = .pc ∨ p = .stack
  | .jp _, p => p = .pc
  | .call _, p => p = .pc ∨ p = .stack
  | .seImm _ _, p => skipWrites s p
  | .sneImm _ _, p => skipWrites s p
  | .seReg _ _ _, p => skipWrites s p
  | .ldImm x _, p => p = .reg x
  | .addImm x _, p => p = .reg x
  | .ldReg x _, p => p = .reg x
  | .orReg x _, p => p = .reg x
  | .andReg x _, p => p = .reg x
  | .xorReg x _, p => p = .reg x
  | .addReg x _, p => p = .reg x ∨ p = .reg vf
  | .sub x _, p => p = .reg x ∨ p = .reg vf
  | .shr x _, p => p = .reg x ∨ p = .reg vf
  | .subn x _, p => p = .reg x ∨ p = .reg vf
  | .shl x _, p => p = .reg x ∨ p = .reg vf
  | .sneReg _ _ _, p => skipWrites s p
  | .ldI _, p => p = .i
  | .jpV0 _, p => p = .pc
  | .rnd x _, p => p = .reg x ∨ p = .draws
  | .drw x y n, p =>
    p = .reg vf ∨
      ∃ r c, r < n.toNat ∧ c < 8 ∧ p = .pixel (column (s.reg x).toNat c) (row (s.reg y).toNat r)
  | .skp _, p => skipWrites s p
  | .sknp _, p => skipWrites s p
  | .ldVxDt x, p => p = .reg x
  | .ldVxK x, p => (p = .reg x ∧ s.keys ≠ 0#16) ∨ (p = .pc ∧ s.keys = 0#16)
  | .ldDtVx _, p => p = .dt
  | .ldStVx _, p => p = .st ∨ p = .tones
  | .addI _, p => p = .i
  | .ldF _, p => p = .i
  | .ldB _, p => ∃ k, k < 3 ∧ s.effAddr k < Config.memSize ∧ p = .byte (s.effAddr k)
  | .ldMemVx x, p => ∃ k, k ≤ x.toNat ∧ s.effAddr k < Config.memSize ∧ p = .byte (s.effAddr k)
  | .ldVxMem x, p => ∃ k : RegIdx, k.toNat ≤ x.toNat ∧ s.effAddr k.toNat < Config.memSize ∧ p = .reg k

/-- The parts each host transaction may write: the "state written" column of 40_cycle_and_interface.md R127. A cycle
may write anything but the keypad state. -/
def transactionWrites : Transaction → Part → Prop
  | .emulateCycle, p => p ≠ .keys
  | .decrementTimers, p => p = .dt ∨ p = .st
  | .load _ _, p => ∃ a, p = .byte a
  | .setKeyPressed _, p => p = .keys
  | .setKeyReleased _, p => p = .keys
  | .readFramebuffer, _ => False

/-- The invariant of a state between transactions. -/
structure State.Inv (s : State) : Prop where
  /-- "the program counter stays within memory bounds" (10_state.md R24). -/
  pcInMemory : s.pc.toNat < Config.memSize
  /-- Every saved return address lies in memory (41_control_flow.md R142). -/
  stackInMemory : ∀ r ∈ s.stack, r.toNat < Config.memSize
  /-- Memory keeps its canonical form. -/
  memCanonical : s.mem.wf = true
  /-- A halted core's program counter holds pc0 (60_exceptions.md R302, R303). -/
  haltedAtFault : ∀ f, s.fault = some f → f.pc0 = s.pc

/-- The sprite column that a draw with its left edge at x0 puts on screen column px: `(px - x0) mod 64`, for an x0
below 256 (44_display.md R241). A sprite has columns 0 to 7. -/
def spriteColumn (x0 : Nat) (px : Fin 64) : Nat := (px.val + 64 * 4 - x0) % 64

/-- The sprite row that a draw with its top edge at y0 puts on screen row py: `(py - y0) mod 32`, for a y0 below 256
(44_display.md R241). A sprite has rows 0 to n - 1. -/
def spriteRow (y0 : Nat) (py : Fin 32) : Nat := (py.val + 32 * 8 - y0) % 32

/-- The sprite bit that a draw of `n` rows with its corner at (x0, y0) puts on pixel (px, py), reading the sprite at
I: off outside the sprite's n rows and 8 columns, else bit `7 - c` of the byte at `I + r` (44_display.md R241, R243). -/
def State.spritePixel (s : State) (x0 y0 : Byte) (n : Nibble) (px : Fin 64) (py : Fin 32) : Bool :=
  decide (spriteRow y0.toNat py < n.toNat) && (decide (spriteColumn x0.toNat px < 8) &&
    (s.readByte (s.effAddr (spriteRow y0.toNat py))).getLsbD (7 - spriteColumn x0.toNat px))

end Sys2Proof.Machine
end

