-- ==== Sys2Proof/Certificates/Slice0/Obligations.lean ====
section
/-! DEFINITION. The statements for the provers. Each is stated for every state and every operand the encoding has.
`OnlyWrites s t w` says that every register, pixel, byte of memory and other part of the state outside `w` is the
same in `t` as in `s` (Safety.lean). Where a statement rests on a decision the spec marks as its own, its docstring
names the decision D<n> and the log entry notes/assumptions/<n>.md. -/

open Sys2Proof Sys2Proof.Machine

/-! ### Encoding -/

/-- Decoding the word of an instruction gives the instruction back, whatever its operands (30_encoding.md R82, R83,
R93). The numeric codes are decision D2, log entry 3. -/
def Obligations.DecodeEncodeRoundTrip : Prop :=
  ∀ i : Instr, decode (encode i) = .ok i

/-- A word that decodes is the word of the instruction it decodes to: no bit is dropped (30_encoding.md R82, R93; the
ignored bits are kept, log entry 18). -/
def Obligations.EncodeRecoversTheWord : Prop :=
  ∀ (w : Word) (i : Instr), decode w = .ok i → encode i = w

/-- The decoder rejects exactly the words of the list of unrecognized secondary codes, and no word has an unknown
family (30_encoding.md R85, R88, R90, R93; the codes are decision D2, log entry 3). -/
def Obligations.RejectedWordsAreTheUnrecognizedOnes : Prop :=
  ∀ w : Word, (decode w = .error .unrecognizedSecondary ↔ wellFormedWord w = false) ∧
    decode w ≠ .error .unknownFamily

/-- The decode test of each row of the opcode map, `(w AND mask) = match`, holds of exactly the words that decode to
that row's instruction (30_encoding.md R87 against R93; the codes are decision D2, log entry 3). -/
def Obligations.DecodeAgreesWithTheOpcodeMap : Prop :=
  ∀ (w : Word) (n : Nat) (mask code : Word), (n, mask, code) ∈ opcodeMap →
    (w &&& mask = code ↔ ∃ i, decode w = .ok i ∧ i.row = n)

/-- Words of the spec's decoder vectors decode as the vectors say (95_test_vectors.md section 2.1). -/
def Obligations.VectorWordsDecode : Prop :=
  decode 0xABCD#16 = .ok (.ldI 0xBCD#12) ∧ decode 0x0120#16 = .ok (.cls 0x12#8) ∧
  decode 0x0FFE#16 = .ok (.ret 0xFF#8) ∧ decode 0x0123#16 = .error .unrecognizedSecondary ∧
  decode 0x5121#16 = .ok (.seReg 1#4 2#4 1#4) ∧ decode 0x812E#16 = .ok (.shl 1#4 2#4) ∧
  decode 0xD01F#16 = .ok (.drw 0#4 1#4 0xF#4) ∧ decode 0xE1A2#16 = .error .unrecognizedSecondary ∧
  decode 0xF165#16 = .ok (.ldVxMem 1#4)

/-- The bytes of an instruction, in address order, decode to it and leave the bytes after it; fewer than two bytes
are rejected by name (30_encoding.md R80; the byte order is decision D1, log entry 2). -/
def Obligations.BytesDecodeToTheirInstruction : Prop :=
  (∀ (i : Instr) (rest : List Byte), decodeBytes (encodeBytes i ++ rest) = .ok (i, rest)) ∧
  decodeBytes [] = .error .truncated ∧ ∀ b : Byte, decodeBytes [b] = .error .truncated

/-- A wider decoder input is decoded modulo 65536 (30_encoding.md R81). -/
def Obligations.WideInputDecodesModulo65536 : Prop :=
  ∀ (w : Word) (k : Nat), decodeWide (w.toNat + k * 65536) = decode w

/-! ### The cycle -/

/-- When the two bytes at the program counter decode to an instruction and the advance stays in memory, a running core's
step is that instruction executed with the program counter advanced by 2, under either configuration
(40_cycle_and_interface.md R110, R112, R115). -/
def Obligations.StepRunsTheDecodedInstruction : Prop :=
  ∀ (s : State) (i : Instr), s.Running → s.CanAdvance →
    decodeBytes [s.readByte s.pc.toNat, s.readByte (s.pc.toNat + 1)] = .ok (i, []) →
    step s = exec i (s.setPc (s.pc + 2#16)) ∧ ∀ cfg, cycle cfg s = exec i (s.setPc (s.pc + 2#16))

/-- An unrecognized secondary code executes nothing: the program counter advances by 2 and no other state changes
(30_encoding.md R89, canonical configuration; the bound of the advance is decision D5, log entry 4). -/
def Obligations.UnrecognizedWordIsNoOperation : Prop :=
  ∀ s : State, s.Running → s.CanAdvance → wellFormedWord s.fetchWord = false →
    ∃ t, step s = .next t ∧ t.pc = s.pc + 2#16 ∧ OnlyWrites s t (fun p => p = .pc)

/-- An advance past the end of memory is a BoundsFault: the program counter keeps pc0, the instruction is not executed,
(BoundsFault, pc0, w) is recorded and nothing else changes (40_cycle_and_interface.md R113; the bound is decision D5,
log entry 4; the fault is a next state, log entry 6). -/
def Obligations.AdvancePastMemoryFaults : Prop :=
  ∀ s : State, s.Running → ¬ s.CanAdvance →
    ∃ t, step s = .next t ∧ t.fault = some ⟨.boundsFault, s.pc, s.fetchWord⟩ ∧
      OnlyWrites s t (fun p => p = .fault)

/-- Under STRICT_SECONDARY an unrecognized secondary code raises DecodeFault at decode, before the advance and its
bounds check: pc0 and the word are recorded and nothing else changes (30_encoding.md R92, 60_exceptions.md R307;
decision D12, log entry 15). -/
def Obligations.StrictDecodeFaultComesFirst : Prop :=
  ∀ s : State, s.Running → wellFormedWord s.fetchWord = false →
    ∃ t, cycle Config.strict s = .next t ∧ t.fault = some ⟨.decodeFault, s.pc, s.fetchWord⟩ ∧
      OnlyWrites s t (fun p => p = .fault)

/-- A halted core returns its recorded fault and changes no state, in either configuration
(40_cycle_and_interface.md R116; decision D8, log entry 6). -/
def Obligations.HaltedCoreReturnsItsFault : Prop :=
  ∀ (cfg : Config) (s : State) (f : FaultRecord), s.fault = some f →
    cycle cfg s = .fault (.halted f) ∧ transact cfg .emulateCycle s = (s, .fatal f)

/-- In the canonical configuration no step raises DecodeFault (30_encoding.md R88, 60_exceptions.md R302, each derived
by the spec). -/
def Obligations.CanonicalStepNeverDecodeFaults : Prop :=
  ∀ (s t : State) (f : FaultRecord), s.Running → step s = .next t → t.fault = some f → f.kind = .boundsFault

/-- Faults are precise: a cycle that records a fault records its own address and the word it fetched there, and every
other part of the state equals the state at the start of the cycle, under either configuration (60_exceptions.md R308,
derived by the spec; decisions D5, D6, D12, log entries 4 and 15). -/
def Obligations.FaultsArePrecise : Prop :=
  ∀ (cfg : Config) (s t : State) (f : FaultRecord), s.Running → cycle cfg s = .next t → t.fault = some f →
    f.pc0 = s.pc ∧ f.word = s.fetchWord ∧ OnlyWrites s t (fun p => p = .fault)

/-- No instruction raises a fault of its own: away from the last four bytes of memory a canonical step leaves the core
running (60_exceptions.md R301, R303; the bounds are decisions D5 and D6, log entry 4). -/
def Obligations.NoFaultAwayFromTheEndOfMemory : Prop :=
  ∀ s t : State, s.Running → s.pc.toNat + 4 < Config.memSize → step s = .next t → t.Running

/-- Every cycle of a running core completes with a next state, and so does every instruction in every state: nothing is
refused and nothing stops the machine but a recorded fault (40_cycle_and_interface.md R115, R129). -/
def Obligations.EveryRunningCycleCompletes : Prop :=
  (∀ (cfg : Config) (s : State), s.Running → ∃ t, cycle cfg s = .next t) ∧
  ∀ (i : Instr) (s : State), ∃ t, exec i s = .next t

/-- The state at creation: registers, I and timers 0, pc 0x200, stack and keypad empty, framebuffer off, memory 0x00,
fault NONE (10_state.md R38, decision D18, log entry 1). -/
def Obligations.CreationState : Prop :=
  (∀ x, State.reset.reg x = 0#8) ∧ State.reset.i = 0#12 ∧ State.reset.pc = 0x200#16 ∧ State.reset.stack = [] ∧
  State.reset.dt = 0#8 ∧ State.reset.st = 0#8 ∧ (∀ k, State.reset.pressed k = false) ∧
  (∀ x y, State.reset.pixel x y = false) ∧ (∀ a, State.reset.readByte a = 0#8) ∧ State.reset.fault = none

/-- The creation state meets the invariant (10_state.md R38, R24). -/
def Obligations.CreationStateMeetsTheInvariant : Prop := State.reset.Inv

/-- Every step keeps the invariant: pc and saved return addresses in memory, memory canonical, a halted core's pc at its
fault (10_state.md R24, R25, 41_control_flow.md R142, 60_exceptions.md R303). -/
def Obligations.StepKeepsTheInvariant : Prop :=
  ∀ s t : State, s.Inv → step s = .next t → t.Inv

/-! ### Rules about the whole machine -/

/-- The frame of every instruction: it writes only the parts its rule names (40_cycle_and_interface.md R114). The parts
are listed instruction by instruction in `writes` (Safety.lean); stores are at the effective addresses the meanings
use. Three clauses rest on decisions of the spec: a skip may write the fault status where it would pass the end of memory
(D6, log entry 4), stores past the end of memory are dropped (D7 and the dump's bound, log entry 5), and the pixels of
`DRW` lie at the VX and VY read before the flag is reset (D14, log entry 10). The parts `draws` and `tones` are the
model's own fields (log entries 7 and 8). -/
def Obligations.InstructionsWriteOnlyTheirParts : Prop :=
  ∀ (i : Instr) (s t : State), exec i s = .next t → OnlyWrites s t (writes s i)

/-- DT and ST change only by `LD DT, Vx`, by `LD ST, Vx` executed by a cycle, and by the tick
(40_cycle_and_interface.md R118). -/
def Obligations.TimersChangeOnlyByTheirWriters : Prop :=
  ∀ (cfg : Config) (tr : Transaction) (s : State),
    ((transact cfg tr s).1.dt ≠ s.dt →
      tr = .decrementTimers ∨ (tr = .emulateCycle ∧ ∃ x, decode s.fetchWord = .ok (.ldDtVx x))) ∧
    ((transact cfg tr s).1.st ≠ s.st →
      tr = .decrementTimers ∨ (tr = .emulateCycle ∧ ∃ x, decode s.fetchWord = .ok (.ldStVx x)))

/-- Only `CLS` and `DRW` change the framebuffer, and no host transaction writes it (44_display.md R244). -/
def Obligations.FramebufferChangesOnlyByClearAndDraw : Prop :=
  ∀ (cfg : Config) (tr : Transaction) (s : State) (x : Fin 64) (y : Fin 32),
    (transact cfg tr s).1.pixel x y ≠ s.pixel x y →
      tr = .emulateCycle ∧
        ((∃ z, decode s.fetchWord = .ok (.cls z)) ∨ ∃ vx vy n, decode s.fetchWord = .ok (.drw vx vy n))

/-- Memory changes only by `LD B, Vx`, `LD [I], Vx` and the host's `load` (20_memory.md R50). -/
def Obligations.MemoryChangesOnlyByItsWriters : Prop :=
  ∀ (cfg : Config) (tr : Transaction) (s : State) (a : Nat),
    (transact cfg tr s).1.readByte a ≠ s.readByte a →
      (∃ bytes offset, tr = .load bytes offset) ∨
        (tr = .emulateCycle ∧ ∃ x, decode s.fetchWord = .ok (.ldB x) ∨ decode s.fetchWord = .ok (.ldMemVx x))

/-- The call stack changes only by `CALL` and `RET`, and the keypad state only by the host's two key transactions
(10_state.md R26, R30). -/
def Obligations.StackAndKeysChangeOnlyByTheirWriters : Prop :=
  ∀ (cfg : Config) (tr : Transaction) (s : State),
    ((transact cfg tr s).1.stack ≠ s.stack →
      tr = .emulateCycle ∧
        ((∃ nnn, decode s.fetchWord = .ok (.call nnn)) ∨ ∃ z, decode s.fetchWord = .ok (.ret z))) ∧
    ((transact cfg tr s).1.keys ≠ s.keys → ∃ id, tr = .setKeyPressed id ∨ tr = .setKeyReleased id)

/-! ### Control flow -/

/-- `JP nnn` and `JP V0, nnn` set the program counter to NNN and to (V0+NNN) mod 4096 and change nothing else
(41_control_flow.md R143, R150). -/
def Obligations.JumpTargets : Prop :=
  ∀ (nnn : Addr) (s : State),
    (∃ t, exec (.jp nnn) s = .next t ∧ t.pc.toNat = nnn.toNat ∧ OnlyWrites s t (fun p => p = .pc)) ∧
    ∃ t, exec (.jpV0 nnn) s = .next t ∧ t.pc.toNat = ((s.reg v0).toNat + nnn.toNat) % 4096 ∧
      OnlyWrites s t (fun p => p = .pc)

/-- `CALL nnn` pushes the current (advanced) program counter and jumps; `RET` pops the last pushed address into the
program counter, and on an empty stack changes nothing (41_control_flow.md R142, R144). -/
def Obligations.CallPushesAndReturnPops : Prop :=
  (∀ (nnn : Addr) (s : State),
    ∃ t, exec (.call nnn) s = .next t ∧ t.stack = s.stack ++ [s.pc] ∧ t.pc.toNat = nnn.toNat ∧
      OnlyWrites s t (fun p => p = .pc ∨ p = .stack)) ∧
  (∀ (z : Byte) (s : State) (rest : List Word) (r : Word), s.stack = rest ++ [r] →
    ∃ t, exec (.ret z) s = .next t ∧ t.stack = rest ∧ t.pc = r ∧
      OnlyWrites s t (fun p => p = .pc ∨ p = .stack)) ∧
  ∀ (z : Byte) (s : State), s.stack = [] → exec (.ret z) s = .next s

/-- A call followed, wherever the callee's own code has left the program counter, by a return restores the program
counter to its value after the call's own advance, and the stack (41_control_flow.md R144, 95_test_vectors.md
L1.7). -/
def Obligations.CallThenReturnRestores : Prop :=
  ∀ (nnn : Addr) (z : Byte) (pc : Word) (s t u : State),
    exec (.call nnn) s = .next t → exec (.ret z) (t.setPc pc) = .next u → u.pc = s.pc ∧ u.stack = s.stack

/-- The four compare skips, where a taken skip stays in memory: the program counter moves 2 bytes further exactly when
the condition holds, and nothing else changes (41_control_flow.md R145 to R148). -/
def Obligations.CompareSkipsSkipOnTheirCondition : Prop :=
  ∀ (x y : RegIdx) (nn : Byte) (z : Nibble) (s : State), s.CanAdvance →
    (∃ t, exec (.seImm x nn) s = .next t ∧ t.pc = (if s.reg x = nn then s.pc + 2#16 else s.pc) ∧
      OnlyWrites s t (fun p => p = .pc)) ∧
    (∃ t, exec (.sneImm x nn) s = .next t ∧ t.pc = (if s.reg x ≠ nn then s.pc + 2#16 else s.pc) ∧
      OnlyWrites s t (fun p => p = .pc)) ∧
    (∃ t, exec (.seReg x y z) s = .next t ∧ t.pc = (if s.reg x = s.reg y then s.pc + 2#16 else s.pc) ∧
      OnlyWrites s t (fun p => p = .pc)) ∧
    ∃ t, exec (.sneReg x y z) s = .next t ∧ t.pc = (if s.reg x ≠ s.reg y then s.pc + 2#16 else s.pc) ∧
      OnlyWrites s t (fun p => p = .pc)

/-- A key is pressed, as the skips test it: its id is at most 15 and its bit of the keypad state is set
(10_state.md R30; ids of 16 and more are decision D16, log entry 12). `SKP` and `SKNP`, where a taken skip stays in
memory, move the program counter 2 bytes further exactly when key VX is pressed, or not pressed (45_keypad_timer.md
R260, R261). -/
def Obligations.KeySkipsTestTheKeypad : Prop :=
  ∀ (x : RegIdx) (s : State), s.CanAdvance →
    (∃ t, exec (.skp x) s = .next t ∧
      t.pc = (if (s.reg x).toNat < 16 ∧ s.keys.getLsbD (s.reg x).toNat = true then s.pc + 2#16 else s.pc) ∧
      OnlyWrites s t (fun p => p = .pc)) ∧
    ∃ t, exec (.sknp x) s = .next t ∧
      t.pc = (if (s.reg x).toNat < 16 ∧ s.keys.getLsbD (s.reg x).toNat = true then s.pc else s.pc + 2#16) ∧
      OnlyWrites s t (fun p => p = .pc)

/-- A skip that is not taken changes nothing, even where a taken one would pass the end of memory (41_control_flow.md
R140, R145 to R148; 45_keypad_timer.md R260, R261). -/
def Obligations.UntakenSkipsChangeNothing : Prop :=
  ∀ (x y : RegIdx) (nn : Byte) (z : Nibble) (s : State),
    (s.reg x ≠ nn → exec (.seImm x nn) s = .next s) ∧
    (s.reg x = nn → exec (.sneImm x nn) s = .next s) ∧
    (s.reg x ≠ s.reg y → exec (.seReg x y z) s = .next s) ∧
    (s.reg x = s.reg y → exec (.sneReg x y z) s = .next s) ∧
    (s.pressed (s.reg x) = false → exec (.skp x) s = .next s) ∧
    (s.pressed (s.reg x) = true → exec (.sknp x) s = .next s)

/-- A taken skip that would pass the end of memory is a BoundsFault: the program counter is back at the skip
instruction, whose address and word are recorded, and nothing else changes. All six skips (41_control_flow.md R140;
decision D6, log entry 4). -/
def Obligations.TakenSkipPastMemoryFaults : Prop :=
  ∀ (i : Instr) (s : State), ¬ s.CanAdvance →
    ((∃ x nn, i = .seImm x nn ∧ s.reg x = nn) ∨ (∃ x nn, i = .sneImm x nn ∧ s.reg x ≠ nn) ∨
      (∃ x y z, i = .seReg x y z ∧ s.reg x = s.reg y) ∨ (∃ x y z, i = .sneReg x y z ∧ s.reg x ≠ s.reg y) ∨
      (∃ x, i = .skp x ∧ s.pressed (s.reg x) = true) ∨ ∃ x, i = .sknp x ∧ s.pressed (s.reg x) = false) →
    ∃ t, exec i s = .next t ∧ t.pc = s.pc - 2#16 ∧ t.fault = some ⟨.boundsFault, s.pc - 2#16, encode i⟩ ∧
      OnlyWrites s t (fun p => p = .pc ∨ p = .fault)

/-! ### Register arithmetic and logic -/

/-- `LD Vx, nn` sets VX to NN, `ADD Vx, nn` to (VX+NN) mod 256, `LD Vx, Vy` to VY; no other register, VF included, and
nothing else changes (42_arithmetic_logic.md R174, R175, R176). -/
def Obligations.LoadsAndImmediateAdd : Prop :=
  ∀ (x y : RegIdx) (nn : Byte) (s : State),
    (∃ t, exec (.ldImm x nn) s = .next t ∧ t.reg x = nn ∧ OnlyWrites s t (fun p => p = .reg x)) ∧
    (∃ t, exec (.addImm x nn) s = .next t ∧ (t.reg x).toNat = ((s.reg x).toNat + nn.toNat) % 256 ∧
      OnlyWrites s t (fun p => p = .reg x)) ∧
    ∃ t, exec (.ldReg x y) s = .next t ∧ t.reg x = s.reg y ∧ OnlyWrites s t (fun p => p = .reg x)

/-- `OR`, `AND`, `XOR` write the bitwise result to VX and nothing else: VF is not reset (42_arithmetic_logic.md R177,
R178, R179). -/
def Obligations.BitwiseResults : Prop :=
  ∀ (x y : RegIdx) (s : State),
    (∃ t, exec (.orReg x y) s = .next t ∧
      (∀ k, (t.reg x).getLsbD k = ((s.reg x).getLsbD k || (s.reg y).getLsbD k)) ∧
      OnlyWrites s t (fun p => p = .reg x)) ∧
    (∃ t, exec (.andReg x y) s = .next t ∧
      (∀ k, (t.reg x).getLsbD k = ((s.reg x).getLsbD k && (s.reg y).getLsbD k)) ∧
      OnlyWrites s t (fun p => p = .reg x)) ∧
    ∃ t, exec (.xorReg x y) s = .next t ∧
      (∀ k, (t.reg x).getLsbD k = ((s.reg x).getLsbD k ^^ (s.reg y).getLsbD k)) ∧
      OnlyWrites s t (fun p => p = .reg x)

/-- `ADD Vx, Vy`: VX is (VX+VY) mod 256 and VF is 1 iff the sum is 256 or more, else 0; with x = 15 VF holds the flag
(42_arithmetic_logic.md R172, R180; the case x = 15 is decision D13, log entry 9). -/
def Obligations.AddWithCarry : Prop :=
  ∀ (x y : RegIdx) (s : State),
    ∃ t, exec (.addReg x y) s = .next t ∧
      (x ≠ vf → (t.reg x).toNat = ((s.reg x).toNat + (s.reg y).toNat) % 256) ∧
      t.reg vf = (if 256 ≤ (s.reg x).toNat + (s.reg y).toNat then 1#8 else 0#8) ∧
      OnlyWrites s t (fun p => p = .reg x ∨ p = .reg vf)

/-- `SUB` and `SUBN`: VX is the difference modulo 256, and VF is 0 iff there was a borrow, else 1; with x = 15 VF holds
the flag (42_arithmetic_logic.md R173, R181, R183; the case x = 15 is decision D13, log entry 9). -/
def Obligations.SubtractWithBorrow : Prop :=
  ∀ (x y : RegIdx) (s : State),
    (∃ t, exec (.sub x y) s = .next t ∧
      (x ≠ vf → (t.reg x).toNat = ((s.reg x).toNat + 256 - (s.reg y).toNat) % 256) ∧
      t.reg vf = (if (s.reg x).toNat < (s.reg y).toNat then 0#8 else 1#8) ∧
      OnlyWrites s t (fun p => p = .reg x ∨ p = .reg vf)) ∧
    ∃ t, exec (.subn x y) s = .next t ∧
      (x ≠ vf → (t.reg x).toNat = ((s.reg y).toNat + 256 - (s.reg x).toNat) % 256) ∧
      t.reg vf = (if (s.reg y).toNat < (s.reg x).toNat then 0#8 else 1#8) ∧
      OnlyWrites s t (fun p => p = .reg x ∨ p = .reg vf)

/-- `SHR` and `SHL` shift VX only, whatever y, and VF is the bit shifted out; with x = 15 VF holds the shifted value
(42_arithmetic_logic.md R182, R184; the case x = 15 is decision D13, log entry 9). -/
def Obligations.ShiftsOfVxOnly : Prop :=
  ∀ (x y : RegIdx) (s : State),
    (∃ t, exec (.shr x y) s = .next t ∧ (t.reg x).toNat = (s.reg x).toNat / 2 ∧
      (x ≠ vf → (t.reg vf).toNat = (s.reg x).toNat % 2) ∧
      OnlyWrites s t (fun p => p = .reg x ∨ p = .reg vf)) ∧
    ∃ t, exec (.shl x y) s = .next t ∧ (t.reg x).toNat = (s.reg x).toNat * 2 % 256 ∧
      (x ≠ vf → (t.reg vf).toNat = (s.reg x).toNat / 128) ∧
      OnlyWrites s t (fun p => p = .reg x ∨ p = .reg vf)

/-- `RND Vx, nn`: VX is a fresh random byte AND NN, so every bit NN clears is clear, and the next draw is another one
(42_arithmetic_logic.md R185, R186). The byte is the free value `Config.freeByte` of the draw counter, decision D17,
log entry 7: the statement holds whatever it is. -/
def Obligations.RandomByteIsMasked : Prop :=
  ∀ (x : RegIdx) (nn : Byte) (s : State),
    ∃ t, exec (.rnd x nn) s = .next t ∧ t.reg x = Config.freeByte s.draws &&& nn ∧
      (∀ k, nn.getLsbD k = false → (t.reg x).getLsbD k = false) ∧ t.draws = s.draws + 1 ∧
      OnlyWrites s t (fun p => p = .reg x ∨ p = .draws)

/-! ### The address register and memory -/

/-- `LD I, nnn` sets I to NNN, `ADD I, Vx` to (I+VX) mod 4096; VF and everything else is unchanged
(43_address_memory.md R210, R212). -/
def Obligations.AddressRegisterWrites : Prop :=
  ∀ (nnn : Addr) (x : RegIdx) (s : State),
    (∃ t, exec (.ldI nnn) s = .next t ∧ t.i = nnn ∧ OnlyWrites s t (fun p => p = .i)) ∧
    ∃ t, exec (.addI x) s = .next t ∧ t.i.toNat = (s.i.toNat + (s.reg x).toNat) % 4096 ∧
      OnlyWrites s t (fun p => p = .i)

/-- `LD F, Vx` sets I to 5 times the whole of VX (43_address_memory.md R213; the glyph size 5 and base 0 are decision
D19, log entry 13). -/
def Obligations.FontAddress : Prop :=
  ∀ (x : RegIdx) (s : State),
    ∃ t, exec (.ldF x) s = .next t ∧ t.i.toNat = 5 * (s.reg x).toNat ∧ OnlyWrites s t (fun p => p = .i)

/-- `LD B, Vx` stores the hundreds, tens and units digit of VX at I, I+1, I+2, drops those past the end of memory, and
changes no other byte and nothing else (43_address_memory.md R214; the dropping is decision D7, log entry 5). -/
def Obligations.DecimalDigitsAreStored : Prop :=
  ∀ (x : RegIdx) (s : State), s.mem.wf = true →
    ∃ t, exec (.ldB x) s = .next t ∧
      (t.readByte (s.effAddr 0)).toNat = (s.reg x).toNat / 100 ∧
      (s.effAddr 1 < Config.memSize → (t.readByte (s.effAddr 1)).toNat = (s.reg x).toNat / 10 % 10) ∧
      (s.effAddr 2 < Config.memSize → (t.readByte (s.effAddr 2)).toNat = (s.reg x).toNat % 10) ∧
      OnlyWrites s t (fun p => ∃ k, k < 3 ∧ s.effAddr k < Config.memSize ∧ p = .byte (s.effAddr k))

/-- `LD [I], Vx` stores V0 to VX at I, I+1, ..., stops silently at the end of memory, and changes no other byte and
nothing else, I included (43_address_memory.md R211, R215; the exact bound is the spec's reading, log entry 5). -/
def Obligations.DumpStoresTheRegisters : Prop :=
  ∀ (x : RegIdx) (s : State), s.mem.wf = true →
    ∃ t, exec (.ldMemVx x) s = .next t ∧
      (∀ k : RegIdx, k.toNat ≤ x.toNat → s.effAddr k.toNat < Config.memSize →
        t.readByte (s.effAddr k.toNat) = s.reg k) ∧
      OnlyWrites s t (fun p => ∃ k, k ≤ x.toNat ∧ s.effAddr k < Config.memSize ∧ p = .byte (s.effAddr k))

/-- `LD Vx, [I]` loads V0 to VX from I, I+1, ..., stops silently at the end of memory, and changes nothing else, I
included (43_address_memory.md R211, R216; the exact bound is the spec's reading, log entry 5). -/
def Obligations.LoadReadsTheRegisters : Prop :=
  ∀ (x : RegIdx) (s : State),
    ∃ t, exec (.ldVxMem x) s = .next t ∧
      (∀ k : RegIdx, k.toNat ≤ x.toNat → s.effAddr k.toNat < Config.memSize →
        t.reg k = s.readByte (s.effAddr k.toNat)) ∧
      OnlyWrites s t
        (fun p => ∃ k : RegIdx, k.toNat ≤ x.toNat ∧ s.effAddr k.toNat < Config.memSize ∧ p = .reg k)

/-- Reading and writing one byte: in canonical memory a write below 4096 is read back and changes no other address, a
write at 4096 or above has no effect, a read there gives 0x00, and the canonical form is kept (20_memory.md R53, R54;
the behaviour at 4096 and above is decision D7, log entry 5). -/
def Obligations.ByteWritesAreReadBack : Prop :=
  ∀ (m : Memory) (a b : Nat) (x : Byte), m.wf = true →
    (a < 4096 → (m.write a x).read a = x) ∧ (a ≠ b → (m.write a x).read b = m.read b) ∧
    (4096 ≤ a → m.write a x = m ∧ m.read a = 0#8) ∧ (m.write a x).wf = true

/-- Two canonical memories that read the same at every address are equal (the form of `Memory` is the model's, log entry
1). -/
def Obligations.CanonicalMemoriesThatReadAlikeAreEqual : Prop :=
  ∀ m m' : Memory, m.wf = true → m'.wf = true → (∀ a, a < 4096 → m.read a = m'.read a) → m = m'

/-! ### Display -/

/-- `CLS` turns every pixel off and changes nothing else (44_display.md R240). -/
def Obligations.ClearTurnsEveryPixelOff : Prop :=
  ∀ (z : Byte) (s : State),
    ∃ t, exec (.cls z) s = .next t ∧ (∀ x y, t.pixel x y = false) ∧
      OnlyWrites s t (fun p => ∃ x y, p = .pixel x y)

/-- `DRW Vx, Vy, n` XORs the sprite at I onto the framebuffer at (VX, VY), wrapping each cell at the edges, rows past the
end of memory reading 0x00, and writes nothing but the inverted pixels and VF (44_display.md R241, R242; the sprite's
bit order is decision D15, log entry 11; reading the coordinates before the flag is reset is D14, entry 10; the rows past
memory are D7, entry 5). -/
def Obligations.DrawXorsTheSprite : Prop :=
  ∀ (x y : RegIdx) (n : Nibble) (s : State),
    ∃ t, exec (.drw x y n) s = .next t ∧
      (∀ px py, t.pixel px py = (s.pixel px py ^^ s.spritePixel (s.reg x) (s.reg y) n px py)) ∧
      OnlyWrites s t
        (fun p => p = .reg vf ∨ ∃ px py, p = .pixel px py ∧ s.spritePixel (s.reg x) (s.reg y) n px py = true)

/-- `DRW` sets VF to 1 if some pixel went from on to off, cumulatively over the sprite, and to 0 otherwise
(44_display.md R241, R242; decisions as for `DrawXorsTheSprite`: D7, D14, D15, log entries 5, 10, 11). -/
def Obligations.DrawFlagsACollision : Prop :=
  ∀ (x y : RegIdx) (n : Nibble) (s : State),
    ∃ t, exec (.drw x y n) s = .next t ∧
      ((∃ px py, s.pixel px py = true ∧ t.pixel px py = false) → t.reg vf = 1#8) ∧
      ((∀ px py, s.pixel px py = true → t.pixel px py = true) → t.reg vf = 0#8)

/-- Drawing the same sprite twice at the same location restores every pixel, and the second draw's flag is 1 iff the
first draw turned a pixel on (44_display.md R242, derived by the spec). -/
def Obligations.DrawingTwiceRestoresThePixels : Prop :=
  ∀ (x y : RegIdx) (n : Nibble) (s t u : State),
    exec (.drw x y n) s = .next t → t.reg x = s.reg x → t.reg y = s.reg y → exec (.drw x y n) t = .next u →
    (∀ px py, u.pixel px py = s.pixel px py) ∧
    (u.reg vf = 1#8 ↔ ∃ px py, s.pixel px py = false ∧ t.pixel px py = true)

/-! ### Keypad and timers -/

/-- `LD Vx, K`: with no key pressed only the program counter changes, back to the instruction; otherwise VX is the
numerically smallest pressed key and nothing else changes (45_keypad_timer.md R263). -/
def Obligations.WaitForKeyTakesTheLowest : Prop :=
  ∀ (x : RegIdx) (s : State),
    ((∀ k, k < 16 → s.keys.getLsbD k = false) →
      ∃ t, exec (.ldVxK x) s = .next t ∧ t.pc = s.pc - 2#16 ∧ OnlyWrites s t (fun p => p = .pc)) ∧
    ((∃ k, k < 16 ∧ s.keys.getLsbD k = true) →
      ∃ t, exec (.ldVxK x) s = .next t ∧ (t.reg x).toNat < 16 ∧ s.keys.getLsbD (t.reg x).toNat = true ∧
        (∀ k, k < (t.reg x).toNat → s.keys.getLsbD k = false) ∧ OnlyWrites s t (fun p => p = .reg x))

/-- `LD Vx, DT` sets VX to DT and `LD DT, Vx` sets DT to VX; nothing else changes (45_keypad_timer.md R262, R264). -/
def Obligations.DelayTimerIsReadAndWritten : Prop :=
  ∀ (x : RegIdx) (s : State),
    (∃ t, exec (.ldVxDt x) s = .next t ∧ t.reg x = s.dt ∧ OnlyWrites s t (fun p => p = .reg x)) ∧
    ∃ t, exec (.ldDtVx x) s = .next t ∧ t.dt = s.reg x ∧ OnlyWrites s t (fun p => p = .dt)

/-- `LD ST, Vx` sets ST to VX and emits ToneRequest(VX) iff VX is positive; nothing else changes (45_keypad_timer.md
R265). The list of emitted requests is the model's record of the output, decision D23, log entry 8. -/
def Obligations.SoundTimerWriteRequestsATone : Prop :=
  ∀ (x : RegIdx) (s : State),
    ∃ t, exec (.ldStVx x) s = .next t ∧ t.st = s.reg x ∧
      t.tones = s.tones ++ (if 0 < (s.reg x).toNat then [s.reg x] else []) ∧
      OnlyWrites s t (fun p => p = .st ∨ p = .tones)

/-! ### The host interface -/

/-- The tick decrements each timer by 1 if positive, running or halted, and changes nothing else
(40_cycle_and_interface.md R120, R121; ticking a halted core is decision D9, log entry 17). -/
def Obligations.TickDecrementsTheTimers : Prop :=
  ∀ (cfg : Config) (s : State),
    ∃ t, transact cfg .decrementTimers s = (t, .ok) ∧ t.dt.toNat = s.dt.toNat - 1 ∧ t.st.toNat = s.st.toNat - 1 ∧
      OnlyWrites s t (fun p => p = .dt ∨ p = .st)

/-- `load` copies the bytes that fit, verbatim, and changes nothing else (40_cycle_and_interface.md R123; an offset of
4096 or more copying nothing is decision D21, log entry 17). -/
def Obligations.LoadCopiesTheBytesThatFit : Prop :=
  ∀ (cfg : Config) (bytes : List Int) (offset : Nat) (s : State), s.mem.wf = true →
    (∀ b ∈ bytes, 0 ≤ b ∧ b < 256) →
    ∃ t, transact cfg (.load bytes (.integer offset)) s = (t, .ok) ∧
      (∀ k (h : k < bytes.length), offset + k < 4096 → ((t.readByte (offset + k)).toNat : Int) = bytes[k]) ∧
      OnlyWrites s t (fun p => ∃ k, k < bytes.length ∧ offset + k < 4096 ∧ p = .byte (offset + k))

/-- `load` with a non-integer offset or a non-byte is rejected with InputValidationError, before the range check; with
good bytes and a negative offset it is rejected with LoadRangeError; a rejection changes nothing
(40_cycle_and_interface.md R123, 60_exceptions.md R305, R306; decisions D10, D21, log entry 17). -/
def Obligations.LoadRejectsBadArguments : Prop :=
  ∀ (cfg : Config) (bytes : List Int) (s : State),
    transact cfg (.load bytes .other) s = (s, .inputValidationError) ∧
    (∀ o : Int, (∃ b ∈ bytes, b < 0 ∨ 255 < b) →
      transact cfg (.load bytes (.integer o)) s = (s, .inputValidationError)) ∧
    ∀ o : Int, o < 0 → (∀ b ∈ bytes, 0 ≤ b ∧ b ≤ 255) →
      transact cfg (.load bytes (.integer o)) s = (s, .loadRangeError)

/-- `setKeyPressed` and `setKeyReleased` press and release exactly the key they name, and reject an id outside 0 to 15
without a change (40_cycle_and_interface.md R124, R125; the rejection is decision D22, log entry 12). -/
def Obligations.KeyTransactionsSetOneKey : Prop :=
  ∀ (cfg : Config) (id : Int) (s : State),
    ((0 ≤ id ∧ id ≤ 15) →
      (∃ t, transact cfg (.setKeyPressed id) s = (t, .ok) ∧
        (∀ k : Byte, t.pressed k = (decide ((k.toNat : Int) = id) || s.pressed k)) ∧
        OnlyWrites s t (fun p => p = .keys)) ∧
      ∃ t, transact cfg (.setKeyReleased id) s = (t, .ok) ∧
        (∀ k : Byte, t.pressed k = (decide ((k.toNat : Int) ≠ id) && s.pressed k)) ∧
        OnlyWrites s t (fun p => p = .keys)) ∧
    ((id < 0 ∨ 15 < id) →
      transact cfg (.setKeyPressed id) s = (s, .inputValidationError) ∧
      transact cfg (.setKeyReleased id) s = (s, .inputValidationError))

/-- `readFramebuffer` returns a copy of the grid, row-major, and changes nothing (40_cycle_and_interface.md R126; the
layout is decision D27, log entry 20). -/
def Obligations.SnapshotCopiesTheFramebuffer : Prop :=
  ∀ (cfg : Config) (s : State),
    ∃ g : Framebuffer, transact cfg .readFramebuffer s = (s, .framebuffer g) ∧
      ∀ (x : Fin 64) (y : Fin 32), (g[y])[x] = s.pixel x y

/-- A cycle that returns OK carries the tone request of `LD ST, Vx` with a positive VX, and no tone request otherwise
(40_cycle_and_interface.md R122; decision D23, log entry 8). -/
def Obligations.CycleReportsItsToneRequest : Prop :=
  ∀ (cfg : Config) (s t : State) (out : List Byte), transact cfg .emulateCycle s = (t, .cycleOk out) →
    (∀ x, decode s.fetchWord = .ok (.ldStVx x) → 0 < (s.reg x).toNat → out = [s.reg x]) ∧
    ((∀ x, decode s.fetchWord = .ok (.ldStVx x) → s.reg x = 0#8) → out = [])

/-- Every host transaction keeps the invariant, under either configuration (20_memory.md R59, 10_state.md R24,
60_exceptions.md R303). -/
def Obligations.TransactionsKeepTheInvariant : Prop :=
  ∀ (cfg : Config) (tr : Transaction) (s : State), s.Inv → (transact cfg tr s).1.Inv

/-- Each host transaction writes only the state that its row of the transaction table names: a cycle anything but the
keypad, the tick the timers, `load` memory, the key transactions the keypad, `readFramebuffer` nothing
(40_cycle_and_interface.md R127; the transaction level is decision D24, log entry 22). -/
def Obligations.TransactionsWriteOnlyTheirState : Prop :=
  ∀ (cfg : Config) (tr : Transaction) (s : State), OnlyWrites s (transact cfg tr s).1 (transactionWrites tr)

/-- A recorded fault is never cleared: whatever transactions the host then makes, the fault status stays what it is, and
nothing but the timers, the keypad and memory can change (40_cycle_and_interface.md R116, 60_exceptions.md R304, R309;
decisions D8 and D9, log entries 6 and 17). -/
def Obligations.HaltedCoreStaysHalted : Prop :=
  ∀ (cfg : Config) (trs : List Transaction) (s : State) (f : FaultRecord), s.fault = some f →
    (runTransactions cfg trs s).fault = some f ∧
      OnlyWrites s (runTransactions cfg trs s) (fun p => p = .dt ∨ p = .st ∨ p = .keys ∨ ∃ a, p = .byte a)
end

