-- ==== Sys2Proof/Laws/Decode.lean ====
section
/-! SUPPORT. The fields of an encoded word, and a word put together from its fields (30_encoding.md R82, R83). With
these, a proof about the encoding never looks at single bits. -/

namespace Sys2Proof

/-! ### The fields of a word, format by format (30_encoding.md R83) -/

theorem fieldF_A (f : Nibble) (nnn : Addr) : Word.fieldF (f ++ nnn) = f := by
  unfold Word.fieldF
  ext k hk
  rw [BitVec.getElem_extractLsb', ← BitVec.getLsbD_eq_getElem]
  simp only [BitVec.getLsbD_append]
  split_ifs <;> first | omega | (congr 1; omega)

theorem fieldNNN_A (f : Nibble) (nnn : Addr) : Word.fieldNNN (f ++ nnn) = nnn := by
  unfold Word.fieldNNN
  ext k hk
  rw [BitVec.getElem_extractLsb', ← BitVec.getLsbD_eq_getElem]
  simp only [BitVec.getLsbD_append]
  split_ifs <;> first | omega | (congr 1; omega)

theorem fieldF_XK (f : Nibble) (x : RegIdx) (nn : Byte) : Word.fieldF (f ++ x ++ nn) = f := by
  unfold Word.fieldF
  ext k hk
  rw [BitVec.getElem_extractLsb', ← BitVec.getLsbD_eq_getElem]
  simp only [BitVec.getLsbD_append]
  split_ifs <;> first | omega | (congr 1; omega)

theorem fieldX_XK (f : Nibble) (x : RegIdx) (nn : Byte) : Word.fieldX (f ++ x ++ nn) = x := by
  unfold Word.fieldX
  ext k hk
  rw [BitVec.getElem_extractLsb', ← BitVec.getLsbD_eq_getElem]
  simp only [BitVec.getLsbD_append]
  split_ifs <;> first | omega | (congr 1; omega)

theorem fieldNN_XK (f : Nibble) (x : RegIdx) (nn : Byte) : Word.fieldNN (f ++ x ++ nn) = nn := by
  unfold Word.fieldNN
  ext k hk
  rw [BitVec.getElem_extractLsb', ← BitVec.getLsbD_eq_getElem]
  simp only [BitVec.getLsbD_append]
  split_ifs <;> first | omega | (congr 1; omega)

theorem fieldF_XY (f : Nibble) (x y : RegIdx) (z : Nibble) : Word.fieldF (f ++ x ++ y ++ z) = f := by
  unfold Word.fieldF
  ext k hk
  rw [BitVec.getElem_extractLsb', ← BitVec.getLsbD_eq_getElem]
  simp only [BitVec.getLsbD_append]
  split_ifs <;> first | omega | (congr 1; omega)

theorem fieldX_XY (f : Nibble) (x y : RegIdx) (z : Nibble) : Word.fieldX (f ++ x ++ y ++ z) = x := by
  unfold Word.fieldX
  ext k hk
  rw [BitVec.getElem_extractLsb', ← BitVec.getLsbD_eq_getElem]
  simp only [BitVec.getLsbD_append]
  split_ifs <;> first | omega | (congr 1; omega)

theorem fieldY_XY (f : Nibble) (x y : RegIdx) (z : Nibble) : Word.fieldY (f ++ x ++ y ++ z) = y := by
  unfold Word.fieldY
  ext k hk
  rw [BitVec.getElem_extractLsb', ← BitVec.getLsbD_eq_getElem]
  simp only [BitVec.getLsbD_append]
  split_ifs <;> first | omega | (congr 1; omega)

theorem fieldN_XY (f : Nibble) (x y : RegIdx) (z : Nibble) : Word.fieldN (f ++ x ++ y ++ z) = z := by
  unfold Word.fieldN
  ext k hk
  rw [BitVec.getElem_extractLsb', ← BitVec.getLsbD_eq_getElem]
  simp only [BitVec.getLsbD_append]
  split_ifs <;> first | omega | (congr 1; omega)

theorem fieldF_O (f : Nibble) (z : Byte) (n : Nibble) : Word.fieldF (f ++ z ++ n) = f := by
  unfold Word.fieldF
  ext k hk
  rw [BitVec.getElem_extractLsb', ← BitVec.getLsbD_eq_getElem]
  simp only [BitVec.getLsbD_append]
  split_ifs <;> first | omega | (congr 1; omega)

theorem fieldN_O (f : Nibble) (z : Byte) (n : Nibble) : Word.fieldN (f ++ z ++ n) = n := by
  unfold Word.fieldN
  ext k hk
  rw [BitVec.getElem_extractLsb', ← BitVec.getLsbD_eq_getElem]
  simp only [BitVec.getLsbD_append]
  split_ifs <;> first | omega | (congr 1; omega)

theorem ignored0_O (f : Nibble) (z : Byte) (n : Nibble) : Word.ignored0 (f ++ z ++ n) = z := by
  unfold Word.ignored0
  ext k hk
  rw [BitVec.getElem_extractLsb', ← BitVec.getLsbD_eq_getElem]
  simp only [BitVec.getLsbD_append]
  split_ifs <;> first | omega | (congr 1; omega)

/-! ### A word from its fields (30_encoding.md R82) -/

theorem word_A (w : Word) : w.fieldF ++ w.fieldNNN = w := by
  unfold Word.fieldF Word.fieldNNN
  ext k hk
  simp only [BitVec.getElem_append, BitVec.getElem_extractLsb']
  split_ifs <;> (rw [← BitVec.getLsbD_eq_getElem]; congr 1; omega)

theorem word_XK (w : Word) : w.fieldF ++ w.fieldX ++ w.fieldNN = w := by
  unfold Word.fieldF Word.fieldX Word.fieldNN
  ext k hk
  simp only [BitVec.getElem_append, BitVec.getElem_extractLsb']
  split_ifs <;> (rw [← BitVec.getLsbD_eq_getElem]; congr 1; omega)

theorem word_XY (w : Word) : w.fieldF ++ w.fieldX ++ w.fieldY ++ w.fieldN = w := by
  unfold Word.fieldF Word.fieldX Word.fieldY Word.fieldN
  ext k hk
  simp only [BitVec.getElem_append, BitVec.getElem_extractLsb']
  split_ifs <;> (rw [← BitVec.getLsbD_eq_getElem]; congr 1; omega)

theorem word_O (w : Word) : w.fieldF ++ w.ignored0 ++ w.fieldN = w := by
  unfold Word.fieldF Word.ignored0 Word.fieldN
  ext k hk
  simp only [BitVec.getElem_append, BitVec.getElem_extractLsb']
  split_ifs <;> (rw [← BitVec.getLsbD_eq_getElem]; congr 1; omega)

/-- The word of the two bytes of a word (20_memory.md R55). -/
@[simp] theorem wordOfBytes_hi_lo (w : Word) : wordOfBytes w.hiByte w.loByte = w := by
  unfold wordOfBytes Word.hiByte Word.loByte
  ext k hk
  simp only [BitVec.getElem_append, BitVec.getElem_extractLsb']
  split_ifs <;> (rw [← BitVec.getLsbD_eq_getElem]; congr 1; omega)

/-! ### A word against a mask (30_encoding.md R87) -/

/-- Two appended words are equal part by part. -/
theorem append_inj_iff {a b : Nat} (x x' : BitVec a) (y y' : BitVec b) : x ++ y = x' ++ y' ↔ x = x' ∧ y = y' := by
  constructor
  · intro h
    have h1 := congrArg (fun z => z.extractLsb' b a) h
    have h2 := congrArg (fun z => z.extractLsb' 0 b) h
    simpa [BitVec.extractLsb'_append_eq_left, BitVec.extractLsb'_append_eq_right] using And.intro h1 h2
  · rintro ⟨rfl, rfl⟩
    rfl

theorem nibble_and_15 (x : Nibble) : x &&& 15#4 = x := by
  rw [show 15#4 = BitVec.allOnes 4 by decide, BitVec.and_allOnes]

theorem byte_and_255 (x : Byte) : x &&& 255#8 = x := by
  rw [show 255#8 = BitVec.allOnes 8 by decide, BitVec.and_allOnes]

/-- A row without a secondary key tests the family. -/
theorem mask_F000 (w : Word) (f : Nibble) : w &&& 0xF000#16 = f ++ 0#12 ↔ w.fieldF = f := by
  rw [show 0xF000#16 = (0xF#4 ++ 0#12 : BitVec (4 + 12)) by decide]
  conv_lhs => rw [← word_A w]
  rw [BitVec.and_append, append_inj_iff]
  simp [nibble_and_15]

/-- A row of family 0x0 or 0x8 tests the family and the low nibble. -/
theorem mask_F00F (w : Word) (f n : Nibble) : w &&& 0xF00F#16 = f ++ 0#8 ++ n ↔ w.fieldF = f ∧ w.fieldN = n := by
  rw [show 0xF00F#16 = (0xF#4 ++ 0#8 ++ 0xF#4 : BitVec (4 + 8 + 4)) by decide]
  conv_lhs => rw [← word_O w]
  rw [BitVec.and_append, BitVec.and_append, append_inj_iff, append_inj_iff]
  simp [nibble_and_15]

/-- A row of family 0xE or 0xF tests the family and the low byte. -/
theorem mask_F0FF (w : Word) (f : Nibble) (nn : Byte) :
    w &&& 0xF0FF#16 = f ++ 0#4 ++ nn ↔ w.fieldF = f ∧ w.fieldNN = nn := by
  rw [show 0xF0FF#16 = (0xF#4 ++ 0#4 ++ 0xFF#8 : BitVec (4 + 4 + 8)) by decide]
  conv_lhs => rw [← word_XK w]
  rw [BitVec.and_append, BitVec.and_append, append_inj_iff, append_inj_iff]
  simp [nibble_and_15, byte_and_255]

/-! ### Fields as numbers (30_encoding.md R82, R90) -/

/-- The family as `wellFormedWord` computes it. -/
theorem fieldF_toNat (w : Word) : w.fieldF.toNat = w.toNat / 4096 := by
  have := w.isLt
  simp [Word.fieldF, BitVec.extractLsb'_toNat, Nat.shiftRight_eq_div_pow]
  omega

/-- The low nibble as `wellFormedWord` computes it. -/
theorem fieldN_eq (w : Word) : w.fieldN = BitVec.ofNat 4 (w.toNat % 16) := by
  apply BitVec.eq_of_toNat_eq
  simp [Word.fieldN, BitVec.extractLsb'_toNat]

/-- The low byte as `wellFormedWord` computes it. -/
theorem fieldNN_eq (w : Word) : w.fieldNN = BitVec.ofNat 8 (w.toNat % 256) := by
  apply BitVec.eq_of_toNat_eq
  simp [Word.fieldNN, BitVec.extractLsb'_toNat]

/-- A nibble is one of sixteen values: "Every value of `f` from 0x0 to 0xF selects a family" (30_encoding.md R85). -/
theorem nibble_cases : ∀ n : Nibble,
    n ∈ ([0, 1, 2, 3, 4, 5, 6, 7, 8, 9, 10, 11, 12, 13, 14, 15] : List Nibble) := by decide

end Sys2Proof
end

