-- ==== Sys2Proof/Laws/State.lean ====
section
/-! SUPPORT. What each update of the state leaves in each field, and what the accessors read after it: one lemma per
field per update, each true by rfl, so that no later proof unfolds a record update. -/

namespace Sys2Proof.Machine

/-! ### `setReg` -/

@[simp] theorem State.setReg_v (s : State) (x : RegIdx) (b : Byte) : (s.setReg x b).v = writeReg s.v x b := rfl
@[simp] theorem State.setReg_i (s : State) (x : RegIdx) (b : Byte) : (s.setReg x b).i = s.i := rfl
@[simp] theorem State.setReg_pc (s : State) (x : RegIdx) (b : Byte) : (s.setReg x b).pc = s.pc := rfl
@[simp] theorem State.setReg_stack (s : State) (x : RegIdx) (b : Byte) : (s.setReg x b).stack = s.stack := rfl
@[simp] theorem State.setReg_dt (s : State) (x : RegIdx) (b : Byte) : (s.setReg x b).dt = s.dt := rfl
@[simp] theorem State.setReg_st (s : State) (x : RegIdx) (b : Byte) : (s.setReg x b).st = s.st := rfl
@[simp] theorem State.setReg_keys (s : State) (x : RegIdx) (b : Byte) : (s.setReg x b).keys = s.keys := rfl
@[simp] theorem State.setReg_fb (s : State) (x : RegIdx) (b : Byte) : (s.setReg x b).fb = s.fb := rfl
@[simp] theorem State.setReg_mem (s : State) (x : RegIdx) (b : Byte) : (s.setReg x b).mem = s.mem := rfl
@[simp] theorem State.setReg_fault (s : State) (x : RegIdx) (b : Byte) : (s.setReg x b).fault = s.fault := rfl
@[simp] theorem State.setReg_draws (s : State) (x : RegIdx) (b : Byte) : (s.setReg x b).draws = s.draws := rfl
@[simp] theorem State.setReg_tones (s : State) (x : RegIdx) (b : Byte) : (s.setReg x b).tones = s.tones := rfl
@[simp] theorem State.setReg_pixel (s : State) (x : RegIdx) (b : Byte) (px : Fin 64) (py : Fin 32) : (s.setReg x b).pixel px py = s.pixel px py := rfl
@[simp] theorem State.setReg_readByte (s : State) (x : RegIdx) (b : Byte) (c : Nat) : (s.setReg x b).readByte c = s.readByte c := rfl
@[simp] theorem State.setReg_effAddr (s : State) (x : RegIdx) (b : Byte) (c : Nat) : (s.setReg x b).effAddr c = s.effAddr c := rfl
@[simp] theorem State.setReg_pressed (s : State) (x : RegIdx) (b : Byte) (c : Byte) : (s.setReg x b).pressed c = s.pressed c := rfl
@[simp] theorem State.setReg_lowestKey (s : State) (x : RegIdx) (b : Byte) : (s.setReg x b).lowestKey = s.lowestKey := rfl

/-! ### `setRegs` -/

@[simp] theorem State.setRegs_v (s : State) (v : Regs) : (s.setRegs v).v = v := rfl
@[simp] theorem State.setRegs_i (s : State) (v : Regs) : (s.setRegs v).i = s.i := rfl
@[simp] theorem State.setRegs_pc (s : State) (v : Regs) : (s.setRegs v).pc = s.pc := rfl
@[simp] theorem State.setRegs_stack (s : State) (v : Regs) : (s.setRegs v).stack = s.stack := rfl
@[simp] theorem State.setRegs_dt (s : State) (v : Regs) : (s.setRegs v).dt = s.dt := rfl
@[simp] theorem State.setRegs_st (s : State) (v : Regs) : (s.setRegs v).st = s.st := rfl
@[simp] theorem State.setRegs_keys (s : State) (v : Regs) : (s.setRegs v).keys = s.keys := rfl
@[simp] theorem State.setRegs_fb (s : State) (v : Regs) : (s.setRegs v).fb = s.fb := rfl
@[simp] theorem State.setRegs_mem (s : State) (v : Regs) : (s.setRegs v).mem = s.mem := rfl
@[simp] theorem State.setRegs_fault (s : State) (v : Regs) : (s.setRegs v).fault = s.fault := rfl
@[simp] theorem State.setRegs_draws (s : State) (v : Regs) : (s.setRegs v).draws = s.draws := rfl
@[simp] theorem State.setRegs_tones (s : State) (v : Regs) : (s.setRegs v).tones = s.tones := rfl
@[simp] theorem State.setRegs_pixel (s : State) (v : Regs) (px : Fin 64) (py : Fin 32) : (s.setRegs v).pixel px py = s.pixel px py := rfl
@[simp] theorem State.setRegs_readByte (s : State) (v : Regs) (c : Nat) : (s.setRegs v).readByte c = s.readByte c := rfl
@[simp] theorem State.setRegs_effAddr (s : State) (v : Regs) (c : Nat) : (s.setRegs v).effAddr c = s.effAddr c := rfl
@[simp] theorem State.setRegs_pressed (s : State) (v : Regs) (c : Byte) : (s.setRegs v).pressed c = s.pressed c := rfl
@[simp] theorem State.setRegs_lowestKey (s : State) (v : Regs) : (s.setRegs v).lowestKey = s.lowestKey := rfl

/-! ### `setI` -/

@[simp] theorem State.setI_v (s : State) (a : Addr) : (s.setI a).v = s.v := rfl
@[simp] theorem State.setI_i (s : State) (a : Addr) : (s.setI a).i = a := rfl
@[simp] theorem State.setI_pc (s : State) (a : Addr) : (s.setI a).pc = s.pc := rfl
@[simp] theorem State.setI_stack (s : State) (a : Addr) : (s.setI a).stack = s.stack := rfl
@[simp] theorem State.setI_dt (s : State) (a : Addr) : (s.setI a).dt = s.dt := rfl
@[simp] theorem State.setI_st (s : State) (a : Addr) : (s.setI a).st = s.st := rfl
@[simp] theorem State.setI_keys (s : State) (a : Addr) : (s.setI a).keys = s.keys := rfl
@[simp] theorem State.setI_fb (s : State) (a : Addr) : (s.setI a).fb = s.fb := rfl
@[simp] theorem State.setI_mem (s : State) (a : Addr) : (s.setI a).mem = s.mem := rfl
@[simp] theorem State.setI_fault (s : State) (a : Addr) : (s.setI a).fault = s.fault := rfl
@[simp] theorem State.setI_draws (s : State) (a : Addr) : (s.setI a).draws = s.draws := rfl
@[simp] theorem State.setI_tones (s : State) (a : Addr) : (s.setI a).tones = s.tones := rfl
@[simp] theorem State.setI_reg (s : State) (a : Addr) (z : RegIdx) : (s.setI a).reg z = s.reg z := rfl
@[simp] theorem State.setI_pixel (s : State) (a : Addr) (px : Fin 64) (py : Fin 32) : (s.setI a).pixel px py = s.pixel px py := rfl
@[simp] theorem State.setI_readByte (s : State) (a : Addr) (c : Nat) : (s.setI a).readByte c = s.readByte c := rfl
@[simp] theorem State.setI_pressed (s : State) (a : Addr) (c : Byte) : (s.setI a).pressed c = s.pressed c := rfl
@[simp] theorem State.setI_lowestKey (s : State) (a : Addr) : (s.setI a).lowestKey = s.lowestKey := rfl

/-! ### `setPc` -/

@[simp] theorem State.setPc_v (s : State) (a : Word) : (s.setPc a).v = s.v := rfl
@[simp] theorem State.setPc_i (s : State) (a : Word) : (s.setPc a).i = s.i := rfl
@[simp] theorem State.setPc_pc (s : State) (a : Word) : (s.setPc a).pc = a := rfl
@[simp] theorem State.setPc_stack (s : State) (a : Word) : (s.setPc a).stack = s.stack := rfl
@[simp] theorem State.setPc_dt (s : State) (a : Word) : (s.setPc a).dt = s.dt := rfl
@[simp] theorem State.setPc_st (s : State) (a : Word) : (s.setPc a).st = s.st := rfl
@[simp] theorem State.setPc_keys (s : State) (a : Word) : (s.setPc a).keys = s.keys := rfl
@[simp] theorem State.setPc_fb (s : State) (a : Word) : (s.setPc a).fb = s.fb := rfl
@[simp] theorem State.setPc_mem (s : State) (a : Word) : (s.setPc a).mem = s.mem := rfl
@[simp] theorem State.setPc_fault (s : State) (a : Word) : (s.setPc a).fault = s.fault := rfl
@[simp] theorem State.setPc_draws (s : State) (a : Word) : (s.setPc a).draws = s.draws := rfl
@[simp] theorem State.setPc_tones (s : State) (a : Word) : (s.setPc a).tones = s.tones := rfl
@[simp] theorem State.setPc_reg (s : State) (a : Word) (z : RegIdx) : (s.setPc a).reg z = s.reg z := rfl
@[simp] theorem State.setPc_pixel (s : State) (a : Word) (px : Fin 64) (py : Fin 32) : (s.setPc a).pixel px py = s.pixel px py := rfl
@[simp] theorem State.setPc_readByte (s : State) (a : Word) (c : Nat) : (s.setPc a).readByte c = s.readByte c := rfl
@[simp] theorem State.setPc_effAddr (s : State) (a : Word) (c : Nat) : (s.setPc a).effAddr c = s.effAddr c := rfl
@[simp] theorem State.setPc_pressed (s : State) (a : Word) (c : Byte) : (s.setPc a).pressed c = s.pressed c := rfl
@[simp] theorem State.setPc_lowestKey (s : State) (a : Word) : (s.setPc a).lowestKey = s.lowestKey := rfl

/-! ### `setDt` -/

@[simp] theorem State.setDt_v (s : State) (b : Byte) : (s.setDt b).v = s.v := rfl
@[simp] theorem State.setDt_i (s : State) (b : Byte) : (s.setDt b).i = s.i := rfl
@[simp] theorem State.setDt_pc (s : State) (b : Byte) : (s.setDt b).pc = s.pc := rfl
@[simp] theorem State.setDt_stack (s : State) (b : Byte) : (s.setDt b).stack = s.stack := rfl
@[simp] theorem State.setDt_dt (s : State) (b : Byte) : (s.setDt b).dt = b := rfl
@[simp] theorem State.setDt_st (s : State) (b : Byte) : (s.setDt b).st = s.st := rfl
@[simp] theorem State.setDt_keys (s : State) (b : Byte) : (s.setDt b).keys = s.keys := rfl
@[simp] theorem State.setDt_fb (s : State) (b : Byte) : (s.setDt b).fb = s.fb := rfl
@[simp] theorem State.setDt_mem (s : State) (b : Byte) : (s.setDt b).mem = s.mem := rfl
@[simp] theorem State.setDt_fault (s : State) (b : Byte) : (s.setDt b).fault = s.fault := rfl
@[simp] theorem State.setDt_draws (s : State) (b : Byte) : (s.setDt b).draws = s.draws := rfl
@[simp] theorem State.setDt_tones (s : State) (b : Byte) : (s.setDt b).tones = s.tones := rfl
@[simp] theorem State.setDt_reg (s : State) (b : Byte) (z : RegIdx) : (s.setDt b).reg z = s.reg z := rfl
@[simp] theorem State.setDt_pixel (s : State) (b : Byte) (px : Fin 64) (py : Fin 32) : (s.setDt b).pixel px py = s.pixel px py := rfl
@[simp] theorem State.setDt_readByte (s : State) (b : Byte) (c : Nat) : (s.setDt b).readByte c = s.readByte c := rfl
@[simp] theorem State.setDt_effAddr (s : State) (b : Byte) (c : Nat) : (s.setDt b).effAddr c = s.effAddr c := rfl
@[simp] theorem State.setDt_pressed (s : State) (b : Byte) (c : Byte) : (s.setDt b).pressed c = s.pressed c := rfl
@[simp] theorem State.setDt_lowestKey (s : State) (b : Byte) : (s.setDt b).lowestKey = s.lowestKey := rfl

/-! ### `setSt` -/

@[simp] theorem State.setSt_v (s : State) (b : Byte) : (s.setSt b).v = s.v := rfl
@[simp] theorem State.setSt_i (s : State) (b : Byte) : (s.setSt b).i = s.i := rfl
@[simp] theorem State.setSt_pc (s : State) (b : Byte) : (s.setSt b).pc = s.pc := rfl
@[simp] theorem State.setSt_stack (s : State) (b : Byte) : (s.setSt b).stack = s.stack := rfl
@[simp] theorem State.setSt_dt (s : State) (b : Byte) : (s.setSt b).dt = s.dt := rfl
@[simp] theorem State.setSt_st (s : State) (b : Byte) : (s.setSt b).st = b := rfl
@[simp] theorem State.setSt_keys (s : State) (b : Byte) : (s.setSt b).keys = s.keys := rfl
@[simp] theorem State.setSt_fb (s : State) (b : Byte) : (s.setSt b).fb = s.fb := rfl
@[simp] theorem State.setSt_mem (s : State) (b : Byte) : (s.setSt b).mem = s.mem := rfl
@[simp] theorem State.setSt_fault (s : State) (b : Byte) : (s.setSt b).fault = s.fault := rfl
@[simp] theorem State.setSt_draws (s : State) (b : Byte) : (s.setSt b).draws = s.draws := rfl
@[simp] theorem State.setSt_tones (s : State) (b : Byte) : (s.setSt b).tones = s.tones := rfl
@[simp] theorem State.setSt_reg (s : State) (b : Byte) (z : RegIdx) : (s.setSt b).reg z = s.reg z := rfl
@[simp] theorem State.setSt_pixel (s : State) (b : Byte) (px : Fin 64) (py : Fin 32) : (s.setSt b).pixel px py = s.pixel px py := rfl
@[simp] theorem State.setSt_readByte (s : State) (b : Byte) (c : Nat) : (s.setSt b).readByte c = s.readByte c := rfl
@[simp] theorem State.setSt_effAddr (s : State) (b : Byte) (c : Nat) : (s.setSt b).effAddr c = s.effAddr c := rfl
@[simp] theorem State.setSt_pressed (s : State) (b : Byte) (c : Byte) : (s.setSt b).pressed c = s.pressed c := rfl
@[simp] theorem State.setSt_lowestKey (s : State) (b : Byte) : (s.setSt b).lowestKey = s.lowestKey := rfl

/-! ### `setKeys` -/

@[simp] theorem State.setKeys_v (s : State) (k : BitVec 16) : (s.setKeys k).v = s.v := rfl
@[simp] theorem State.setKeys_i (s : State) (k : BitVec 16) : (s.setKeys k).i = s.i := rfl
@[simp] theorem State.setKeys_pc (s : State) (k : BitVec 16) : (s.setKeys k).pc = s.pc := rfl
@[simp] theorem State.setKeys_stack (s : State) (k : BitVec 16) : (s.setKeys k).stack = s.stack := rfl
@[simp] theorem State.setKeys_dt (s : State) (k : BitVec 16) : (s.setKeys k).dt = s.dt := rfl
@[simp] theorem State.setKeys_st (s : State) (k : BitVec 16) : (s.setKeys k).st = s.st := rfl
@[simp] theorem State.setKeys_keys (s : State) (k : BitVec 16) : (s.setKeys k).keys = k := rfl
@[simp] theorem State.setKeys_fb (s : State) (k : BitVec 16) : (s.setKeys k).fb = s.fb := rfl
@[simp] theorem State.setKeys_mem (s : State) (k : BitVec 16) : (s.setKeys k).mem = s.mem := rfl
@[simp] theorem State.setKeys_fault (s : State) (k : BitVec 16) : (s.setKeys k).fault = s.fault := rfl
@[simp] theorem State.setKeys_draws (s : State) (k : BitVec 16) : (s.setKeys k).draws = s.draws := rfl
@[simp] theorem State.setKeys_tones (s : State) (k : BitVec 16) : (s.setKeys k).tones = s.tones := rfl
@[simp] theorem State.setKeys_reg (s : State) (k : BitVec 16) (z : RegIdx) : (s.setKeys k).reg z = s.reg z := rfl
@[simp] theorem State.setKeys_pixel (s : State) (k : BitVec 16) (px : Fin 64) (py : Fin 32) : (s.setKeys k).pixel px py = s.pixel px py := rfl
@[simp] theorem State.setKeys_readByte (s : State) (k : BitVec 16) (c : Nat) : (s.setKeys k).readByte c = s.readByte c := rfl
@[simp] theorem State.setKeys_effAddr (s : State) (k : BitVec 16) (c : Nat) : (s.setKeys k).effAddr c = s.effAddr c := rfl

/-! ### `writeByte` -/

@[simp] theorem State.writeByte_v (s : State) (a : Nat) (b : Byte) : (s.writeByte a b).v = s.v := rfl
@[simp] theorem State.writeByte_i (s : State) (a : Nat) (b : Byte) : (s.writeByte a b).i = s.i := rfl
@[simp] theorem State.writeByte_pc (s : State) (a : Nat) (b : Byte) : (s.writeByte a b).pc = s.pc := rfl
@[simp] theorem State.writeByte_stack (s : State) (a : Nat) (b : Byte) : (s.writeByte a b).stack = s.stack := rfl
@[simp] theorem State.writeByte_dt (s : State) (a : Nat) (b : Byte) : (s.writeByte a b).dt = s.dt := rfl
@[simp] theorem State.writeByte_st (s : State) (a : Nat) (b : Byte) : (s.writeByte a b).st = s.st := rfl
@[simp] theorem State.writeByte_keys (s : State) (a : Nat) (b : Byte) : (s.writeByte a b).keys = s.keys := rfl
@[simp] theorem State.writeByte_fb (s : State) (a : Nat) (b : Byte) : (s.writeByte a b).fb = s.fb := rfl
@[simp] theorem State.writeByte_mem (s : State) (a : Nat) (b : Byte) : (s.writeByte a b).mem = s.mem.write a b := rfl
@[simp] theorem State.writeByte_fault (s : State) (a : Nat) (b : Byte) : (s.writeByte a b).fault = s.fault := rfl
@[simp] theorem State.writeByte_draws (s : State) (a : Nat) (b : Byte) : (s.writeByte a b).draws = s.draws := rfl
@[simp] theorem State.writeByte_tones (s : State) (a : Nat) (b : Byte) : (s.writeByte a b).tones = s.tones := rfl
@[simp] theorem State.writeByte_reg (s : State) (a : Nat) (b : Byte) (z : RegIdx) : (s.writeByte a b).reg z = s.reg z := rfl
@[simp] theorem State.writeByte_pixel (s : State) (a : Nat) (b : Byte) (px : Fin 64) (py : Fin 32) : (s.writeByte a b).pixel px py = s.pixel px py := rfl
@[simp] theorem State.writeByte_effAddr (s : State) (a : Nat) (b : Byte) (c : Nat) : (s.writeByte a b).effAddr c = s.effAddr c := rfl
@[simp] theorem State.writeByte_pressed (s : State) (a : Nat) (b : Byte) (c : Byte) : (s.writeByte a b).pressed c = s.pressed c := rfl
@[simp] theorem State.writeByte_lowestKey (s : State) (a : Nat) (b : Byte) : (s.writeByte a b).lowestKey = s.lowestKey := rfl

/-! ### `setMem` -/

@[simp] theorem State.setMem_v (s : State) (m : Memory) : (s.setMem m).v = s.v := rfl
@[simp] theorem State.setMem_i (s : State) (m : Memory) : (s.setMem m).i = s.i := rfl
@[simp] theorem State.setMem_pc (s : State) (m : Memory) : (s.setMem m).pc = s.pc := rfl
@[simp] theorem State.setMem_stack (s : State) (m : Memory) : (s.setMem m).stack = s.stack := rfl
@[simp] theorem State.setMem_dt (s : State) (m : Memory) : (s.setMem m).dt = s.dt := rfl
@[simp] theorem State.setMem_st (s : State) (m : Memory) : (s.setMem m).st = s.st := rfl
@[simp] theorem State.setMem_keys (s : State) (m : Memory) : (s.setMem m).keys = s.keys := rfl
@[simp] theorem State.setMem_fb (s : State) (m : Memory) : (s.setMem m).fb = s.fb := rfl
@[simp] theorem State.setMem_mem (s : State) (m : Memory) : (s.setMem m).mem = m := rfl
@[simp] theorem State.setMem_fault (s : State) (m : Memory) : (s.setMem m).fault = s.fault := rfl
@[simp] theorem State.setMem_draws (s : State) (m : Memory) : (s.setMem m).draws = s.draws := rfl
@[simp] theorem State.setMem_tones (s : State) (m : Memory) : (s.setMem m).tones = s.tones := rfl
@[simp] theorem State.setMem_reg (s : State) (m : Memory) (z : RegIdx) : (s.setMem m).reg z = s.reg z := rfl
@[simp] theorem State.setMem_pixel (s : State) (m : Memory) (px : Fin 64) (py : Fin 32) : (s.setMem m).pixel px py = s.pixel px py := rfl
@[simp] theorem State.setMem_effAddr (s : State) (m : Memory) (c : Nat) : (s.setMem m).effAddr c = s.effAddr c := rfl
@[simp] theorem State.setMem_pressed (s : State) (m : Memory) (c : Byte) : (s.setMem m).pressed c = s.pressed c := rfl
@[simp] theorem State.setMem_lowestKey (s : State) (m : Memory) : (s.setMem m).lowestKey = s.lowestKey := rfl

/-! ### `push` -/

@[simp] theorem State.push_v (s : State) (a : Word) : (s.push a).v = s.v := rfl
@[simp] theorem State.push_i (s : State) (a : Word) : (s.push a).i = s.i := rfl
@[simp] theorem State.push_pc (s : State) (a : Word) : (s.push a).pc = s.pc := rfl
@[simp] theorem State.push_stack (s : State) (a : Word) : (s.push a).stack = s.stack ++ [a] := rfl
@[simp] theorem State.push_dt (s : State) (a : Word) : (s.push a).dt = s.dt := rfl
@[simp] theorem State.push_st (s : State) (a : Word) : (s.push a).st = s.st := rfl
@[simp] theorem State.push_keys (s : State) (a : Word) : (s.push a).keys = s.keys := rfl
@[simp] theorem State.push_fb (s : State) (a : Word) : (s.push a).fb = s.fb := rfl
@[simp] theorem State.push_mem (s : State) (a : Word) : (s.push a).mem = s.mem := rfl
@[simp] theorem State.push_fault (s : State) (a : Word) : (s.push a).fault = s.fault := rfl
@[simp] theorem State.push_draws (s : State) (a : Word) : (s.push a).draws = s.draws := rfl
@[simp] theorem State.push_tones (s : State) (a : Word) : (s.push a).tones = s.tones := rfl
@[simp] theorem State.push_reg (s : State) (a : Word) (z : RegIdx) : (s.push a).reg z = s.reg z := rfl
@[simp] theorem State.push_pixel (s : State) (a : Word) (px : Fin 64) (py : Fin 32) : (s.push a).pixel px py = s.pixel px py := rfl
@[simp] theorem State.push_readByte (s : State) (a : Word) (c : Nat) : (s.push a).readByte c = s.readByte c := rfl
@[simp] theorem State.push_effAddr (s : State) (a : Word) (c : Nat) : (s.push a).effAddr c = s.effAddr c := rfl
@[simp] theorem State.push_pressed (s : State) (a : Word) (c : Byte) : (s.push a).pressed c = s.pressed c := rfl
@[simp] theorem State.push_lowestKey (s : State) (a : Word) : (s.push a).lowestKey = s.lowestKey := rfl

/-! ### `dropTop` -/

@[simp] theorem State.dropTop_v (s : State) : (s.dropTop).v = s.v := rfl
@[simp] theorem State.dropTop_i (s : State) : (s.dropTop).i = s.i := rfl
@[simp] theorem State.dropTop_pc (s : State) : (s.dropTop).pc = s.pc := rfl
@[simp] theorem State.dropTop_stack (s : State) : (s.dropTop).stack = s.stack.dropLast := rfl
@[simp] theorem State.dropTop_dt (s : State) : (s.dropTop).dt = s.dt := rfl
@[simp] theorem State.dropTop_st (s : State) : (s.dropTop).st = s.st := rfl
@[simp] theorem State.dropTop_keys (s : State) : (s.dropTop).keys = s.keys := rfl
@[simp] theorem State.dropTop_fb (s : State) : (s.dropTop).fb = s.fb := rfl
@[simp] theorem State.dropTop_mem (s : State) : (s.dropTop).mem = s.mem := rfl
@[simp] theorem State.dropTop_fault (s : State) : (s.dropTop).fault = s.fault := rfl
@[simp] theorem State.dropTop_draws (s : State) : (s.dropTop).draws = s.draws := rfl
@[simp] theorem State.dropTop_tones (s : State) : (s.dropTop).tones = s.tones := rfl
@[simp] theorem State.dropTop_reg (s : State) (z : RegIdx) : (s.dropTop).reg z = s.reg z := rfl
@[simp] theorem State.dropTop_pixel (s : State) (px : Fin 64) (py : Fin 32) : (s.dropTop).pixel px py = s.pixel px py := rfl
@[simp] theorem State.dropTop_readByte (s : State) (c : Nat) : (s.dropTop).readByte c = s.readByte c := rfl
@[simp] theorem State.dropTop_effAddr (s : State) (c : Nat) : (s.dropTop).effAddr c = s.effAddr c := rfl
@[simp] theorem State.dropTop_pressed (s : State) (c : Byte) : (s.dropTop).pressed c = s.pressed c := rfl
@[simp] theorem State.dropTop_lowestKey (s : State) : (s.dropTop).lowestKey = s.lowestKey := rfl

/-! ### `setFb` -/

@[simp] theorem State.setFb_v (s : State) (fb : Framebuffer) : (s.setFb fb).v = s.v := rfl
@[simp] theorem State.setFb_i (s : State) (fb : Framebuffer) : (s.setFb fb).i = s.i := rfl
@[simp] theorem State.setFb_pc (s : State) (fb : Framebuffer) : (s.setFb fb).pc = s.pc := rfl
@[simp] theorem State.setFb_stack (s : State) (fb : Framebuffer) : (s.setFb fb).stack = s.stack := rfl
@[simp] theorem State.setFb_dt (s : State) (fb : Framebuffer) : (s.setFb fb).dt = s.dt := rfl
@[simp] theorem State.setFb_st (s : State) (fb : Framebuffer) : (s.setFb fb).st = s.st := rfl
@[simp] theorem State.setFb_keys (s : State) (fb : Framebuffer) : (s.setFb fb).keys = s.keys := rfl
@[simp] theorem State.setFb_fb (s : State) (fb : Framebuffer) : (s.setFb fb).fb = fb := rfl
@[simp] theorem State.setFb_mem (s : State) (fb : Framebuffer) : (s.setFb fb).mem = s.mem := rfl
@[simp] theorem State.setFb_fault (s : State) (fb : Framebuffer) : (s.setFb fb).fault = s.fault := rfl
@[simp] theorem State.setFb_draws (s : State) (fb : Framebuffer) : (s.setFb fb).draws = s.draws := rfl
@[simp] theorem State.setFb_tones (s : State) (fb : Framebuffer) : (s.setFb fb).tones = s.tones := rfl
@[simp] theorem State.setFb_reg (s : State) (fb : Framebuffer) (z : RegIdx) : (s.setFb fb).reg z = s.reg z := rfl
@[simp] theorem State.setFb_readByte (s : State) (fb : Framebuffer) (c : Nat) : (s.setFb fb).readByte c = s.readByte c := rfl
@[simp] theorem State.setFb_effAddr (s : State) (fb : Framebuffer) (c : Nat) : (s.setFb fb).effAddr c = s.effAddr c := rfl
@[simp] theorem State.setFb_pressed (s : State) (fb : Framebuffer) (c : Byte) : (s.setFb fb).pressed c = s.pressed c := rfl
@[simp] theorem State.setFb_lowestKey (s : State) (fb : Framebuffer) : (s.setFb fb).lowestKey = s.lowestKey := rfl

/-! ### `nextDraw` -/

@[simp] theorem State.nextDraw_v (s : State) : (s.nextDraw).v = s.v := rfl
@[simp] theorem State.nextDraw_i (s : State) : (s.nextDraw).i = s.i := rfl
@[simp] theorem State.nextDraw_pc (s : State) : (s.nextDraw).pc = s.pc := rfl
@[simp] theorem State.nextDraw_stack (s : State) : (s.nextDraw).stack = s.stack := rfl
@[simp] theorem State.nextDraw_dt (s : State) : (s.nextDraw).dt = s.dt := rfl
@[simp] theorem State.nextDraw_st (s : State) : (s.nextDraw).st = s.st := rfl
@[simp] theorem State.nextDraw_keys (s : State) : (s.nextDraw).keys = s.keys := rfl
@[simp] theorem State.nextDraw_fb (s : State) : (s.nextDraw).fb = s.fb := rfl
@[simp] theorem State.nextDraw_mem (s : State) : (s.nextDraw).mem = s.mem := rfl
@[simp] theorem State.nextDraw_fault (s : State) : (s.nextDraw).fault = s.fault := rfl
@[simp] theorem State.nextDraw_draws (s : State) : (s.nextDraw).draws = s.draws + 1 := rfl
@[simp] theorem State.nextDraw_tones (s : State) : (s.nextDraw).tones = s.tones := rfl
@[simp] theorem State.nextDraw_reg (s : State) (z : RegIdx) : (s.nextDraw).reg z = s.reg z := rfl
@[simp] theorem State.nextDraw_pixel (s : State) (px : Fin 64) (py : Fin 32) : (s.nextDraw).pixel px py = s.pixel px py := rfl
@[simp] theorem State.nextDraw_readByte (s : State) (c : Nat) : (s.nextDraw).readByte c = s.readByte c := rfl
@[simp] theorem State.nextDraw_effAddr (s : State) (c : Nat) : (s.nextDraw).effAddr c = s.effAddr c := rfl
@[simp] theorem State.nextDraw_pressed (s : State) (c : Byte) : (s.nextDraw).pressed c = s.pressed c := rfl
@[simp] theorem State.nextDraw_lowestKey (s : State) : (s.nextDraw).lowestKey = s.lowestKey := rfl

/-! ### `emitTone` -/

@[simp] theorem State.emitTone_v (s : State) (b : Byte) : (s.emitTone b).v = s.v := rfl
@[simp] theorem State.emitTone_i (s : State) (b : Byte) : (s.emitTone b).i = s.i := rfl
@[simp] theorem State.emitTone_pc (s : State) (b : Byte) : (s.emitTone b).pc = s.pc := rfl
@[simp] theorem State.emitTone_stack (s : State) (b : Byte) : (s.emitTone b).stack = s.stack := rfl
@[simp] theorem State.emitTone_dt (s : State) (b : Byte) : (s.emitTone b).dt = s.dt := rfl
@[simp] theorem State.emitTone_st (s : State) (b : Byte) : (s.emitTone b).st = s.st := rfl
@[simp] theorem State.emitTone_keys (s : State) (b : Byte) : (s.emitTone b).keys = s.keys := rfl
@[simp] theorem State.emitTone_fb (s : State) (b : Byte) : (s.emitTone b).fb = s.fb := rfl
@[simp] theorem State.emitTone_mem (s : State) (b : Byte) : (s.emitTone b).mem = s.mem := rfl
@[simp] theorem State.emitTone_fault (s : State) (b : Byte) : (s.emitTone b).fault = s.fault := rfl
@[simp] theorem State.emitTone_draws (s : State) (b : Byte) : (s.emitTone b).draws = s.draws := rfl
@[simp] theorem State.emitTone_tones (s : State) (b : Byte) : (s.emitTone b).tones = s.tones ++ [b] := rfl
@[simp] theorem State.emitTone_reg (s : State) (b : Byte) (z : RegIdx) : (s.emitTone b).reg z = s.reg z := rfl
@[simp] theorem State.emitTone_pixel (s : State) (b : Byte) (px : Fin 64) (py : Fin 32) : (s.emitTone b).pixel px py = s.pixel px py := rfl
@[simp] theorem State.emitTone_readByte (s : State) (b : Byte) (c : Nat) : (s.emitTone b).readByte c = s.readByte c := rfl
@[simp] theorem State.emitTone_effAddr (s : State) (b : Byte) (c : Nat) : (s.emitTone b).effAddr c = s.effAddr c := rfl
@[simp] theorem State.emitTone_pressed (s : State) (b : Byte) (c : Byte) : (s.emitTone b).pressed c = s.pressed c := rfl
@[simp] theorem State.emitTone_lowestKey (s : State) (b : Byte) : (s.emitTone b).lowestKey = s.lowestKey := rfl

/-! ### `takeFault` -/

@[simp] theorem State.takeFault_v (s : State) (k : FatalKind) (a w : Word) : (s.takeFault k a w).v = s.v := rfl
@[simp] theorem State.takeFault_i (s : State) (k : FatalKind) (a w : Word) : (s.takeFault k a w).i = s.i := rfl
@[simp] theorem State.takeFault_pc (s : State) (k : FatalKind) (a w : Word) : (s.takeFault k a w).pc = a := rfl
@[simp] theorem State.takeFault_stack (s : State) (k : FatalKind) (a w : Word) : (s.takeFault k a w).stack = s.stack := rfl
@[simp] theorem State.takeFault_dt (s : State) (k : FatalKind) (a w : Word) : (s.takeFault k a w).dt = s.dt := rfl
@[simp] theorem State.takeFault_st (s : State) (k : FatalKind) (a w : Word) : (s.takeFault k a w).st = s.st := rfl
@[simp] theorem State.takeFault_keys (s : State) (k : FatalKind) (a w : Word) : (s.takeFault k a w).keys = s.keys := rfl
@[simp] theorem State.takeFault_fb (s : State) (k : FatalKind) (a w : Word) : (s.takeFault k a w).fb = s.fb := rfl
@[simp] theorem State.takeFault_mem (s : State) (k : FatalKind) (a w : Word) : (s.takeFault k a w).mem = s.mem := rfl
@[simp] theorem State.takeFault_fault (s : State) (k : FatalKind) (a w : Word) : (s.takeFault k a w).fault = some ⟨k, a, w⟩ := rfl
@[simp] theorem State.takeFault_draws (s : State) (k : FatalKind) (a w : Word) : (s.takeFault k a w).draws = s.draws := rfl
@[simp] theorem State.takeFault_tones (s : State) (k : FatalKind) (a w : Word) : (s.takeFault k a w).tones = s.tones := rfl
@[simp] theorem State.takeFault_reg (s : State) (k : FatalKind) (a w : Word) (z : RegIdx) : (s.takeFault k a w).reg z = s.reg z := rfl
@[simp] theorem State.takeFault_pixel (s : State) (k : FatalKind) (a w : Word) (px : Fin 64) (py : Fin 32) : (s.takeFault k a w).pixel px py = s.pixel px py := rfl
@[simp] theorem State.takeFault_readByte (s : State) (k : FatalKind) (a w : Word) (c : Nat) : (s.takeFault k a w).readByte c = s.readByte c := rfl
@[simp] theorem State.takeFault_effAddr (s : State) (k : FatalKind) (a w : Word) (c : Nat) : (s.takeFault k a w).effAddr c = s.effAddr c := rfl
@[simp] theorem State.takeFault_pressed (s : State) (k : FatalKind) (a w : Word) (c : Byte) : (s.takeFault k a w).pressed c = s.pressed c := rfl
@[simp] theorem State.takeFault_lowestKey (s : State) (k : FatalKind) (a w : Word) : (s.takeFault k a w).lowestKey = s.lowestKey := rfl

/-! ### `advance` -/

@[simp] theorem State.advance_v (s : State) : (s.advance).v = s.v := rfl
@[simp] theorem State.advance_i (s : State) : (s.advance).i = s.i := rfl
@[simp] theorem State.advance_pc (s : State) : (s.advance).pc = s.pc + 2#16 := rfl
@[simp] theorem State.advance_stack (s : State) : (s.advance).stack = s.stack := rfl
@[simp] theorem State.advance_dt (s : State) : (s.advance).dt = s.dt := rfl
@[simp] theorem State.advance_st (s : State) : (s.advance).st = s.st := rfl
@[simp] theorem State.advance_keys (s : State) : (s.advance).keys = s.keys := rfl
@[simp] theorem State.advance_fb (s : State) : (s.advance).fb = s.fb := rfl
@[simp] theorem State.advance_mem (s : State) : (s.advance).mem = s.mem := rfl
@[simp] theorem State.advance_fault (s : State) : (s.advance).fault = s.fault := rfl
@[simp] theorem State.advance_draws (s : State) : (s.advance).draws = s.draws := rfl
@[simp] theorem State.advance_tones (s : State) : (s.advance).tones = s.tones := rfl
@[simp] theorem State.advance_reg (s : State) (z : RegIdx) : (s.advance).reg z = s.reg z := rfl
@[simp] theorem State.advance_pixel (s : State) (px : Fin 64) (py : Fin 32) : (s.advance).pixel px py = s.pixel px py := rfl
@[simp] theorem State.advance_readByte (s : State) (c : Nat) : (s.advance).readByte c = s.readByte c := rfl
@[simp] theorem State.advance_effAddr (s : State) (c : Nat) : (s.advance).effAddr c = s.effAddr c := rfl
@[simp] theorem State.advance_pressed (s : State) (c : Byte) : (s.advance).pressed c = s.pressed c := rfl
@[simp] theorem State.advance_lowestKey (s : State) : (s.advance).lowestKey = s.lowestKey := rfl

/-! ### The accessors over the updates they see -/

/-- A register read after a whole register file is put in. -/
@[simp] theorem State.setRegs_reg (s : State) (v : Regs) (z : RegIdx) : (s.setRegs v).reg z = readReg v z := rfl

/-- A byte read after a whole memory is put in. -/
@[simp] theorem State.setMem_readByte (s : State) (m : Memory) (c : Nat) : (s.setMem m).readByte c = m.read c := rfl

/-- A pixel read after a whole framebuffer is put in. -/
@[simp] theorem State.setFb_pixel (s : State) (fb : Framebuffer) (px : Fin 64) (py : Fin 32) :
    (s.setFb fb).pixel px py = fb.pixel px py := rfl

/-- A register read after one register is written (10_state.md R20). -/
theorem readReg_writeReg (v : Regs) (x z : RegIdx) (b : Byte) :
    readReg (writeReg v x b) z = if z = x then b else readReg v z := by
  unfold readReg writeReg
  rw [Vector.getElem_set]
  by_cases h : z = x
  · simp [h]
  · have : x.toNat ≠ z.toNat := fun e => h (BitVec.eq_of_toNat_eq e.symm)
    simp [h, this]

/-- A register read after one register is written (10_state.md R20). -/
@[simp] theorem State.setReg_reg (s : State) (x z : RegIdx) (b : Byte) :
    (s.setReg x b).reg z = if z = x then b else s.reg z := readReg_writeReg s.v x z b

/-- A pixel read after one pixel is written (10_state.md R31). -/
theorem Framebuffer.pixel_setPixel (fb : Framebuffer) (x px : Fin 64) (y py : Fin 32) (b : Bool) :
    (fb.setPixel x y b).pixel px py = if px = x ∧ py = y then b else fb.pixel px py := by
  unfold Framebuffer.pixel Framebuffer.setPixel
  simp only [Fin.getElem_fin, Vector.getElem_set]
  by_cases hy : py = y
  · subst hy
    by_cases hx : px = x
    · simp [hx]
    · have : x.val ≠ px.val := fun e => hx (Fin.ext e.symm)
      simp [hx, this]
  · have : y.val ≠ py.val := fun e => hy (Fin.ext e.symm)
    simp [hy, this]

/-- Every pixel of the cleared framebuffer is off (44_display.md R240). -/
@[simp] theorem Framebuffer.allOff_pixel (px : Fin 64) (py : Fin 32) : Framebuffer.allOff.pixel px py = false := by
  simp [Framebuffer.allOff, Framebuffer.pixel]

end Sys2Proof.Machine
end

