-- ==== Sys2Proof/Laws/Memory.lean ====
section
/-! SUPPORT. Memory: every operation keeps the canonical form, and what a read gives after a write
(20_memory.md R53, R54, R62). -/

namespace Sys2Proof.Machine

/-! ### The list operations -/

/-- Another address reads as before an insertion, canonical or not. -/
theorem Memory.lookup_insert_other (m : Memory) {a b : Nat} (x : Byte) (h : b ≠ a) :
    Memory.lookup (m.insert a x) b = m.lookup b := by
  induction m with
  | nil => by_cases hx : x = Memory.unlisted <;> simp [Memory.insert, Memory.lookup, hx, h]
  | cons c m ih =>
    obtain ⟨k, y⟩ := c
    unfold Memory.insert
    by_cases h1 : a < k
    · by_cases hx : x = Memory.unlisted <;> simp [h1, hx, Memory.lookup, h]
    · by_cases h2 : a = k
      · subst h2
        by_cases hx : x = Memory.unlisted <;> simp [hx, Memory.lookup, h]
      · simp [h1, h2, Memory.lookup, ih]

/-- A canonical memory that starts at `lo` lists nothing below it. -/
theorem Memory.lookup_below {m : Memory} {lo a : Nat} (hm : Memory.wfFrom lo m = true) (h : a < lo) :
    m.lookup a = Memory.unlisted := by
  induction m generalizing lo with
  | nil => rfl
  | cons c m ih =>
    obtain ⟨k, y⟩ := c
    simp only [Memory.wfFrom, Bool.and_eq_true, decide_eq_true_eq] at hm
    obtain ⟨⟨⟨h1, -⟩, -⟩, h4⟩ := hm
    have : a ≠ k := by omega
    simp only [Memory.lookup, this, if_false]
    exact ih h4 (by omega)

/-- An inserted byte is found again. -/
theorem Memory.lookup_insert_same {m : Memory} {lo a : Nat} (x : Byte) (hm : Memory.wfFrom lo m = true) :
    Memory.lookup (m.insert a x) a = x := by
  induction m generalizing lo with
  | nil => by_cases hx : x = Memory.unlisted <;> simp [Memory.insert, Memory.lookup, hx]
  | cons c m ih =>
    obtain ⟨k, y⟩ := c
    simp only [Memory.wfFrom, Bool.and_eq_true, decide_eq_true_eq] at hm
    obtain ⟨-, h4⟩ := hm
    unfold Memory.insert
    by_cases h1 : a < k
    · have h2 : a ≠ k := by omega
      by_cases hx : x = Memory.unlisted
      · simp [h1, hx, Memory.lookup, h2, Memory.lookup_below h4 (by omega : a < k + 1)]
      · simp [h1, hx, Memory.lookup]
    · by_cases h2 : a = k
      · subst h2
        by_cases hx : x = Memory.unlisted
        · simp [hx, Memory.lookup_below h4 (by omega : a < a + 1)]
        · simp [hx, Memory.lookup]
      · simp only [h1, h2, if_false, Memory.lookup]
        exact ih h4

/-- A canonical memory is canonical from any lower start. -/
theorem Memory.wfFrom_lower {m : Memory} {lo lo' : Nat} (hm : Memory.wfFrom lo m = true) (h : lo' ≤ lo) :
    Memory.wfFrom lo' m = true := by
  cases m with
  | nil => rfl
  | cons c m =>
    obtain ⟨k, y⟩ := c
    simp only [Memory.wfFrom, Bool.and_eq_true, decide_eq_true_eq] at hm ⊢
    exact ⟨⟨⟨by omega, hm.1.1.2⟩, hm.1.2⟩, hm.2⟩

/-- An insertion below the end of memory keeps the canonical form. -/
theorem Memory.wfFrom_insert {m : Memory} {lo a : Nat} (x : Byte) (hm : Memory.wfFrom lo m = true) (hlo : lo ≤ a)
    (ha : a < Config.memSize) : Memory.wfFrom lo (m.insert a x) = true := by
  induction m generalizing lo with
  | nil => by_cases hx : x = Memory.unlisted <;> simp [Memory.insert, Memory.wfFrom, hx, hlo, ha]
  | cons c m ih =>
    obtain ⟨k, y⟩ := c
    simp only [Memory.wfFrom, Bool.and_eq_true, decide_eq_true_eq] at hm
    obtain ⟨⟨⟨h1, h2⟩, h3⟩, h4⟩ := hm
    unfold Memory.insert
    by_cases hak : a < k
    · by_cases hx : x = Memory.unlisted
      · simp [hak, hx, Memory.wfFrom, h1, h2, h3, h4]
      · simp [hak, hx, Memory.wfFrom, hlo, ha, h2, h3, h4, show a + 1 ≤ k by omega]
    · by_cases hak2 : a = k
      · subst hak2
        by_cases hx : x = Memory.unlisted
        · simpa [hx] using Memory.wfFrom_lower h4 (by omega)
        · simp [hx, Memory.wfFrom, hlo, ha, h4]
      · simp only [hak, hak2, if_false, Memory.wfFrom, Bool.and_eq_true, decide_eq_true_eq]
        exact ⟨⟨⟨h1, h2⟩, h3⟩, ih h4 (by omega)⟩

/-! ### `MemRead` and `MemWrite` -/

/-- A write keeps the canonical form (20_memory.md R54). -/
theorem Memory.wf_write {m : Memory} (a : Nat) (x : Byte) (hm : m.wf = true) : (m.write a x).wf = true := by
  unfold Memory.write
  split
  · exact Memory.wfFrom_insert x hm (Nat.zero_le a) ‹_›
  · exact hm

/-- Another address reads as before a write (20_memory.md R54). -/
theorem Memory.read_write_other (m : Memory) {a b : Nat} (x : Byte) (h : b ≠ a) :
    Memory.read (m.write a x) b = m.read b := by
  by_cases ha : a < Config.memSize
  · simp [Memory.read, Memory.write, ha, Memory.lookup_insert_other, h]
  · simp [Memory.write, ha]

/-- A written byte of memory is read back (20_memory.md R62). -/
theorem Memory.read_write_same {m : Memory} {a : Nat} (x : Byte) (hm : m.wf = true) (ha : a < Config.memSize) :
    Memory.read (m.write a x) a = x := by
  simp [Memory.read, Memory.write, ha, Memory.lookup_insert_same x hm]

/-- A read at 4096 or above gives 0x00 (20_memory.md R53). -/
theorem Memory.read_outside (m : Memory) {a : Nat} (ha : Config.memSize ≤ a) : m.read a = 0x00#8 := by
  simp [Memory.read, Nat.not_lt.mpr ha]

/-- A write at 4096 or above has no effect (20_memory.md R54). -/
theorem Memory.write_outside (m : Memory) {a : Nat} (x : Byte) (ha : Config.memSize ≤ a) : m.write a x = m := by
  simp [Memory.write, Nat.not_lt.mpr ha]

/-- Memory at creation is canonical (10_state.md R38). -/
theorem Memory.wf_reset : State.reset.mem.wf = true := rfl

/-! ### Several bytes -/

/-- A dump keeps the canonical form (43_address_memory.md R215). -/
theorem wf_dumpFrom (v : Regs) (a : Nat) {k count : Nat} {m : Memory} (hm : m.wf = true) :
    (dumpFrom v a k count m).wf = true := by
  induction count generalizing k m with
  | zero => exact hm
  | succ count ih =>
    unfold dumpFrom
    split
    · exact hm
    · exact ih (Memory.wf_write _ _ hm)

/-- A dump changes only the bytes it stores to (43_address_memory.md R215). -/
theorem read_dumpFrom_other (v : Regs) (a : Nat) {k count b : Nat} (m : Memory)
    (h : ∀ j, k ≤ j → j < k + count → a + j < Config.memSize → b ≠ a + j) :
    Memory.read (dumpFrom v a k count m) b = m.read b := by
  induction count generalizing k m with
  | zero => rfl
  | succ count ih =>
    unfold dumpFrom
    split
    · rfl
    · rename_i hk
      rw [ih _ (fun j h1 h2 h3 => h j (by omega) (by omega) h3),
        Memory.read_write_other _ _ (h k (by omega) (by omega) (by omega))]

/-- A dump stores each register in range at its address (43_address_memory.md R215). -/
theorem read_dumpFrom_same (v : Regs) (a : Nat) {k count j : Nat} {m : Memory} (hm : m.wf = true)
    (hk : k ≤ j) (hj : j < k + count) (ha : a + j < Config.memSize) :
    Memory.read (dumpFrom v a k count m) (a + j) = readReg v (BitVec.ofNat 4 j) := by
  induction count generalizing k m with
  | zero => omega
  | succ count ih =>
    unfold dumpFrom
    rw [if_neg (by omega)]
    by_cases hjk : j = k
    · subst hjk
      rw [read_dumpFrom_other v a _ (fun i h1 h2 h3 => by omega), Memory.read_write_same _ hm ha]
    · exact ih (Memory.wf_write _ _ hm) (by omega) (by omega)

/-- A register load changes only the registers it loads (43_address_memory.md R216). -/
theorem readReg_loadFrom_other (m : Memory) (a : Nat) {k count : Nat} (v : Regs) (z : RegIdx)
    (hk : k + count ≤ 16) (h : ¬(k ≤ z.toNat ∧ z.toNat < k + count ∧ a + z.toNat < Config.memSize)) :
    readReg (loadFrom m a k count v) z = readReg v z := by
  induction count generalizing k v with
  | zero => rfl
  | succ count ih =>
    unfold loadFrom
    split
    · rfl
    · rename_i hb
      have hz : z ≠ BitVec.ofNat 4 k := by
        intro e
        have : z.toNat = k := by rw [e, BitVec.toNat_ofNat]; omega
        omega
      rw [ih _ (by omega) (by omega), readReg_writeReg, if_neg hz]

/-- A register load puts into each register in range the byte at its address (43_address_memory.md R216). -/
theorem readReg_loadFrom_same (m : Memory) (a : Nat) {k count : Nat} (v : Regs) (z : RegIdx)
    (hc : k + count ≤ 16) (hk : k ≤ z.toNat) (hz : z.toNat < k + count) (ha : a + z.toNat < Config.memSize) :
    readReg (loadFrom m a k count v) z = m.read (a + z.toNat) := by
  induction count generalizing k v with
  | zero => omega
  | succ count ih =>
    unfold loadFrom
    rw [if_neg (by omega)]
    by_cases hzk : z.toNat = k
    · have e : BitVec.ofNat 4 k = z := by rw [← hzk]; simp
      rw [readReg_loadFrom_other m a _ z (by omega) (by omega), e, readReg_writeReg, if_pos rfl, hzk]
    · exact ih _ (by omega) (by omega) (by omega)

/-- The host's copy keeps the canonical form (40_cycle_and_interface.md R123). -/
theorem wf_copyBytes {m : Memory} (a : Nat) (bs : List Byte) (hm : m.wf = true) : (copyBytes m a bs).wf = true := by
  induction bs generalizing m a with
  | nil => exact hm
  | cons b bs ih => exact ih _ (Memory.wf_write _ _ hm)

/-- The host's copy changes only the bytes it copies to (40_cycle_and_interface.md R123). -/
theorem read_copyBytes_other (m : Memory) {a c : Nat} (bs : List Byte) (h : ∀ k, k < bs.length → c ≠ a + k) :
    Memory.read (copyBytes m a bs) c = m.read c := by
  induction bs generalizing m a with
  | nil => rfl
  | cons b bs ih =>
    have h0 := h 0 (by simp)
    rw [copyBytes, ih _ (fun k hk => by have := h (k + 1) (by simp; omega); omega),
      Memory.read_write_other _ _ (by omega)]

/-- The host's copy puts each byte at its address (40_cycle_and_interface.md R123). -/
theorem read_copyBytes_same {m : Memory} {a : Nat} (bs : List Byte) (hm : m.wf = true) {k : Nat}
    (hk : k < bs.length) (ha : a + k < Config.memSize) : Memory.read (copyBytes m a bs) (a + k) = bs[k] := by
  induction bs generalizing m a k with
  | nil => simp at hk
  | cons b bs ih =>
    rw [copyBytes]
    cases k with
    | zero =>
      rw [read_copyBytes_other _ _ (fun k _ => by omega)]
      simpa using Memory.read_write_same b hm ha
    | succ k =>
      have := ih (Memory.wf_write a b hm) (k := k) (a := a + 1) (by simpa using hk) (by omega)
      simpa [Nat.add_assoc, Nat.add_comm 1 k] using this

end Sys2Proof.Machine
end

