-- ==== Sys2Proof/Laws/Frame.lean ====
section
/-! SUPPORT. What each shared operation writes: one lemma per operation, saying with `OnlyWrites` everything it may
change. The frame of an instruction is put together from these. -/

namespace Sys2Proof.Machine

/-! ### `OnlyWrites` itself -/

/-- Nothing happened, so nothing outside any parts changed. -/
theorem OnlyWrites.refl (s : State) (w : Part → Prop) : OnlyWrites s s w := by
  intro p _
  cases p <;> rfl

/-- One operation after another. -/
theorem OnlyWrites.trans {s t u : State} {w : Part → Prop} (h1 : OnlyWrites s t w) (h2 : OnlyWrites t u w) :
    OnlyWrites s u w := by
  intro p hp
  have a := h1 p hp
  have b := h2 p hp
  cases p <;> exact b.trans a

/-- More parts may be allowed. -/
theorem OnlyWrites.mono {s t : State} {w w' : Part → Prop} (h : OnlyWrites s t w) (hw : ∀ p, w p → w' p) :
    OnlyWrites s t w' := fun p hp => h p fun h' => hp (hw p h')

/-! ### The operations -/

theorem onlyWrites_setReg (s : State) (x : RegIdx) (b : Byte) : OnlyWrites s (s.setReg x b) (fun p => p = .reg x) := by
  intro p hp
  cases p <;> simp_all [Part.agrees]

theorem onlyWrites_setI (s : State) (a : Addr) : OnlyWrites s (s.setI a) (fun p => p = .i) := by
  intro p hp
  cases p <;> simp_all [Part.agrees]

theorem onlyWrites_setPc (s : State) (a : Word) : OnlyWrites s (s.setPc a) (fun p => p = .pc) := by
  intro p hp
  cases p <;> simp_all [Part.agrees]

theorem onlyWrites_setDt (s : State) (b : Byte) : OnlyWrites s (s.setDt b) (fun p => p = .dt) := by
  intro p hp
  cases p <;> simp_all [Part.agrees]

theorem onlyWrites_setSt (s : State) (b : Byte) : OnlyWrites s (s.setSt b) (fun p => p = .st) := by
  intro p hp
  cases p <;> simp_all [Part.agrees]

theorem onlyWrites_setKeys (s : State) (k : BitVec 16) : OnlyWrites s (s.setKeys k) (fun p => p = .keys) := by
  intro p hp
  cases p <;> simp_all [Part.agrees]

theorem onlyWrites_push (s : State) (a : Word) : OnlyWrites s (s.push a) (fun p => p = .stack) := by
  intro p hp
  cases p <;> simp_all [Part.agrees]

theorem onlyWrites_dropTop (s : State) : OnlyWrites s s.dropTop (fun p => p = .stack) := by
  intro p hp
  cases p <;> simp_all [Part.agrees]

theorem onlyWrites_nextDraw (s : State) : OnlyWrites s s.nextDraw (fun p => p = .draws) := by
  intro p hp
  cases p <;> simp_all [Part.agrees]

theorem onlyWrites_emitTone (s : State) (b : Byte) : OnlyWrites s (s.emitTone b) (fun p => p = .tones) := by
  intro p hp
  cases p <;> simp_all [Part.agrees]

/-- A byte store writes that byte, and nothing at 4096 or above (20_memory.md R54). -/
theorem onlyWrites_writeByte (s : State) (a : Nat) (b : Byte) :
    OnlyWrites s (s.writeByte a b) (fun p => a < Config.memSize ∧ p = .byte a) := by
  intro p hp
  cases p with
  | byte c =>
    by_cases ha : a < Config.memSize
    · have hc : c ≠ a := fun h => hp ⟨ha, by rw [h]⟩
      exact Memory.read_write_other s.mem b hc
    · simp [Part.agrees, State.readByte, Memory.write_outside s.mem b (Nat.not_lt.mp ha)]
  | _ => simp [Part.agrees]

/-- Replacing memory writes the bytes that read differently. -/
theorem onlyWrites_setMem (s : State) (m : Memory) (w : Part → Prop)
    (h : ∀ a, ¬ w (.byte a) → m.read a = s.readByte a) : OnlyWrites s (s.setMem m) w := by
  intro p hp
  cases p with
  | byte a => exact h a hp
  | _ => simp [Part.agrees]

/-- Replacing the register file writes the registers that read differently. -/
theorem onlyWrites_setRegs (s : State) (v : Regs) (w : Part → Prop)
    (h : ∀ z, ¬ w (.reg z) → readReg v z = s.reg z) : OnlyWrites s (s.setRegs v) w := by
  intro p hp
  cases p with
  | reg z => exact h z hp
  | _ => simp [Part.agrees]

/-- Replacing the framebuffer writes the pixels that differ. -/
theorem onlyWrites_setFb (s : State) (fb : Framebuffer) (w : Part → Prop)
    (h : ∀ x y, ¬ w (.pixel x y) → fb.pixel x y = s.pixel x y) : OnlyWrites s (s.setFb fb) w := by
  intro p hp
  cases p with
  | pixel x y => exact h x y hp
  | _ => simp [Part.agrees]

/-- Taking a fault writes the program counter and the fault status (60_exceptions.md R308). -/
theorem onlyWrites_takeFault (s : State) (k : FatalKind) (a w : Word) :
    OnlyWrites s (s.takeFault k a w) (fun p => p = .pc ∨ p = .fault) := by
  intro p hp
  cases p <;> simp_all [Part.agrees]

/-- Taking a fault at the program counter writes the fault status only (60_exceptions.md R308). -/
theorem onlyWrites_takeFault_here (s : State) (k : FatalKind) (w : Word) :
    OnlyWrites s (s.takeFault k s.pc w) (fun p => p = .fault) := by
  intro p hp
  cases p <;> simp_all [Part.agrees]

/-! ### Skipping (41_control_flow.md R140) -/

/-- A skip inside memory. -/
theorem skip_inside {s : State} (w : Word) (h : s.CanAdvance) : s.skip w = s.setPc (s.pc + 2#16) := by
  unfold State.skip
  rw [if_neg (Nat.not_le.mpr h)]

/-- A skip past the end of memory. -/
theorem skip_outside {s : State} (w : Word) (h : ¬ s.CanAdvance) :
    s.skip w = s.takeFault .boundsFault (s.pc - 2#16) w := by
  unfold State.skip
  rw [if_pos (Nat.not_lt.mp h)]

/-- Everything a conditional skip may write. -/
theorem onlyWrites_skipIf (s : State) (c : Bool) (w : Word) : OnlyWrites s (s.skipIf c w) (skipWrites s) := by
  unfold State.skipIf
  split
  · by_cases h : s.CanAdvance
    · rw [skip_inside w h]
      exact (onlyWrites_setPc _ _).mono fun p hp => .inl hp
    · rw [skip_outside w h]
      exact (onlyWrites_takeFault _ _ _ _).mono fun p hp => hp.imp id fun h' => ⟨h', Nat.not_lt.mp h⟩
  · exact OnlyWrites.refl _ _

end Sys2Proof.Machine
end

