-- ==== Sys2Proof/Laws/Cycle.lean ====
section
/-! SUPPORT. What one cycle can do, said once (40_cycle_and_interface.md R115): every claim about a step starts from
`cycle_cases`. -/

namespace Sys2Proof.Machine

/-- The advance does not wrap while it stays in memory (40_cycle_and_interface.md R113). -/
theorem advance_toNat {s : State} (h : s.CanAdvance) : s.advance.pc.toNat = s.pc.toNat + 2 := by
  unfold State.CanAdvance Config.boundsLimit at h
  simp
  omega

/-- Taking the advance back gives pc0 (41_control_flow.md R140). -/
@[simp] theorem advance_sub (s : State) : s.advance.pc - 2#16 = s.pc := by
  simp

/-- A cycle that answers a next state started from a running core, and either raised DecodeFault at decode, or BoundsFault
at the advance, or executed an instruction after the advance, or executed nothing after it (R115). -/
theorem cycle_cases {cfg : Config} {s t : State} (h : cycle cfg s = .next t) :
    s.Running ∧
    ((∃ r, decode s.fetchWord = .error r ∧ rejectFaults cfg r = true ∧
        t = s.takeFault .decodeFault s.pc s.fetchWord) ∨
      (¬ s.CanAdvance ∧ t = s.takeFault .boundsFault s.pc s.fetchWord) ∨
      (s.CanAdvance ∧ ∃ i, decode s.fetchWord = .ok i ∧ exec i s.advance = .next t) ∨
      (s.CanAdvance ∧ ∃ r, decode s.fetchWord = .error r ∧ rejectFaults cfg r = false ∧ t = s.advance)) := by
  unfold cycle at h
  split at h
  · contradiction
  · rename_i hf
    refine ⟨hf, ?_⟩
    unfold runCycle advanceThen at h
    split at h
    · rename_i i hd
      split at h
      · rename_i hb
        injection h with h
        exact .inr (.inl ⟨Nat.not_lt.mpr hb, h.symm⟩)
      · rename_i hb
        exact .inr (.inr (.inl ⟨Nat.not_le.mp hb, i, hd, h⟩))
    · rename_i r hd
      split at h
      · rename_i hr
        injection h with h
        exact .inl ⟨r, hd, hr, h.symm⟩
      · rename_i hr
        split at h
        · rename_i hb
          injection h with h
          exact .inr (.inl ⟨Nat.not_lt.mpr hb, h.symm⟩)
        · rename_i hb
          injection h with h
          exact .inr (.inr (.inr ⟨Nat.not_le.mp hb, r, hd, by simpa using hr, h.symm⟩))

/-- A running core whose word decodes and whose advance stays in memory executes the instruction (R115). -/
theorem cycle_of_decode (cfg : Config) {s : State} {i : Instr} (hr : s.Running) (ha : s.CanAdvance)
    (hd : decode s.fetchWord = .ok i) : cycle cfg s = exec i s.advance := by
  unfold State.Running at hr
  unfold cycle runCycle advanceThen
  rw [hr, hd]
  exact if_neg (Nat.not_le.mpr ha)

/-- What the state after a placed word fetches: that word, where memory is canonical and the word lies inside it
(20_memory.md R55, R56). -/
theorem fetchWord_placeWord {s : State} (w : Word) (hm : s.mem.wf = true) (h : s.pc.toNat + 1 < Config.memSize) :
    (s.placeWord w).fetchWord = w := by
  have h1 : ((s.placeWord w).readByte s.pc.toNat) = w.hiByte := by
    unfold State.placeWord State.readByte
    simp only [State.writeByte_mem]
    rw [Memory.read_write_other _ _ (by omega), Memory.read_write_same _ hm (by omega)]
  have h2 : ((s.placeWord w).readByte (s.pc.toNat + 1)) = w.loByte := by
    unfold State.placeWord State.readByte
    simp only [State.writeByte_mem]
    rw [Memory.read_write_same _ (Memory.wf_write _ _ hm) h]
  have hpc : (s.placeWord w).pc = s.pc := rfl
  unfold State.fetchWord
  rw [hpc, h1, h2, wordOfBytes_hi_lo]

end Sys2Proof.Machine
end

