-- ==== Sys2Proof/Laws/Display.lean ====
section
/-! SUPPORT. What drawing a sprite leaves in each pixel, and when it notes a collision (44_display.md R241, R242). -/

namespace Sys2Proof.Machine

/-! ### Coordinates -/

/-- Which sprite column lands on a screen column (44_display.md R241). -/
theorem column_eq_iff {x0 c : Nat} (hx : x0 < 256) (hc : c < 64) (px : Fin 64) :
    px = column x0 c ↔ spriteColumn x0 px = c := by
  have := px.isLt
  rw [Fin.ext_iff]
  simp only [column, spriteColumn, Fin.val_ofNat]
  omega

/-- Which sprite row lands on a screen row (44_display.md R241). -/
theorem row_eq_iff {y0 r : Nat} (hy : y0 < 256) (hr : r < 32) (py : Fin 32) :
    py = row y0 r ↔ spriteRow y0 py = r := by
  have := py.isLt
  rw [Fin.ext_iff]
  simp only [row, spriteRow, Fin.val_ofNat]
  omega

/-! ### One row -/

/-- The pixels after the first n columns of a sprite row. -/
theorem pixel_drawCells (b : Byte) {x0 n : Nat} (y : Fin 32) (p : Framebuffer × Bool) (hx : x0 < 256) (hn : n ≤ 64)
    (px : Fin 64) (py : Fin 32) :
    Framebuffer.pixel ((List.range n).foldl (drawCell b x0 y) p).1 px py =
      (p.1.pixel px py ^^ (decide (py = y) && (decide (spriteColumn x0 px < n) && spriteBit b (spriteColumn x0 px)))) := by
  induction n with
  | zero => simp
  | succ n ih =>
    rw [List.range_succ, List.foldl_append, List.foldl_cons, List.foldl_nil]
    have ih := ih (by omega)
    generalize (List.range n).foldl (drawCell b x0 y) p = q at ih ⊢
    have hcol := column_eq_iff hx (show n < 64 by omega) px
    unfold drawCell
    by_cases hb : spriteBit b n = true
    · rw [if_pos hb]
      unfold plot
      rw [Framebuffer.pixel_setPixel]
      by_cases hc : spriteColumn x0 px = n
      · by_cases hy : py = y
        · subst hy
          have e := hcol.mpr hc
          rw [if_pos ⟨e, rfl⟩, ← e, ih]
          simp [hc, hb]
        · rw [if_neg (fun h => hy h.2), ih]
          simp [hy]
      · rw [if_neg (fun h => hc (hcol.mp h.1)), ih]
        simp [show spriteColumn x0 px < n + 1 ↔ spriteColumn x0 px < n by omega]
    · rw [if_neg hb, ih]
      by_cases hc : spriteColumn x0 px = n
      · simp [hc, hb]
      · simp [show spriteColumn x0 px < n + 1 ↔ spriteColumn x0 px < n by omega]

/-- The collision note after the first n columns of a sprite row. -/
theorem hit_drawCells (b : Byte) {x0 n : Nat} (y : Fin 32) (p : Framebuffer × Bool) (hx : x0 < 256) (hn : n ≤ 64) :
    ((List.range n).foldl (drawCell b x0 y) p).2 = true ↔
      p.2 = true ∨ ∃ px, spriteColumn x0 px < n ∧ spriteBit b (spriteColumn x0 px) = true ∧ p.1.pixel px y = true := by
  induction n with
  | zero => simp
  | succ n ih =>
    rw [List.range_succ, List.foldl_append, List.foldl_cons, List.foldl_nil]
    have ih := ih (by omega)
    have hp := pixel_drawCells b y p hx (show n ≤ 64 by omega) (column x0 n) y
    have hcol := (column_eq_iff hx (show n < 64 by omega) (column x0 n)).mp rfl
    simp only [hcol, Nat.lt_irrefl, decide_false, Bool.false_and, Bool.and_false, Bool.xor_false] at hp
    generalize (List.range n).foldl (drawCell b x0 y) p = q at ih hp ⊢
    unfold drawCell
    by_cases hb : spriteBit b n = true
    · rw [if_pos hb]
      simp only [plot, Bool.or_eq_true, ih, hp]
      constructor
      · rintro ((h | ⟨px, h1, h2, h3⟩) | h)
        · exact .inl h
        · exact .inr ⟨px, by omega, h2, h3⟩
        · exact .inr ⟨column x0 n, by omega, by rw [hcol]; exact hb, h⟩
      · rintro (h | ⟨px, h1, h2, h3⟩)
        · exact .inl (.inl h)
        · by_cases hc : spriteColumn x0 px = n
          · exact .inr (by rw [← (column_eq_iff hx (show n < 64 by omega) px).mpr hc]; exact h3)
          · exact .inl (.inr ⟨px, by omega, h2, h3⟩)
    · rw [if_neg hb, ih]
      constructor
      · rintro (h | ⟨px, h1, h2, h3⟩)
        · exact .inl h
        · exact .inr ⟨px, by omega, h2, h3⟩
      · rintro (h | ⟨px, h1, h2, h3⟩)
        · exact .inl h
        · by_cases hc : spriteColumn x0 px = n
          · exact absurd (hc ▸ h2) hb
          · exact .inr ⟨px, by omega, h2, h3⟩

/-! ### The sprite -/

/-- The sprite bit on a pixel when n rows are drawn from address a. -/
def spriteAt (m : Memory) (a x0 y0 n : Nat) (px : Fin 64) (py : Fin 32) : Bool :=
  decide (spriteRow y0 py < n) && (decide (spriteColumn x0 px < 8) &&
    spriteBit (m.read (a + spriteRow y0 py)) (spriteColumn x0 px))

/-- The pixels after n rows of a sprite: each is XORed with the sprite bit that lands on it (44_display.md R241). -/
theorem pixel_drawSprite (m : Memory) (a : Nat) {x0 y0 n : Nat} (p : Framebuffer × Bool) (hx : x0 < 256) (hy : y0 < 256)
    (hn : n ≤ 32) (px : Fin 64) (py : Fin 32) :
    Framebuffer.pixel (drawSprite m a x0 y0 n p).1 px py = (p.1.pixel px py ^^ spriteAt m a x0 y0 n px py) := by
  unfold drawSprite
  induction n with
  | zero => simp [spriteAt]
  | succ n ih =>
    rw [List.range_succ, List.foldl_append, List.foldl_cons, List.foldl_nil]
    have ih := ih (by omega)
    generalize (List.range n).foldl (fun p r => drawRow (m.read (a + r)) x0 (row y0 r) p) p = q at ih ⊢
    rw [drawRow, pixel_drawCells _ _ _ hx (by omega), ih]
    have hrow := row_eq_iff hy (show n < 32 by omega) py
    unfold spriteAt
    by_cases hr : spriteRow y0 py = n
    · simp [hrow.mpr hr, (row_eq_iff hy (show n < 32 by omega) (row y0 n)).mp rfl]
    · have : ¬ py = row y0 n := fun h => hr (hrow.mp h)
      simp [this, show spriteRow y0 py < n + 1 ↔ spriteRow y0 py < n by omega]

/-- The collision note after n rows of a sprite: some pixel that was on got a sprite bit (44_display.md R241). -/
theorem hit_drawSprite (m : Memory) (a : Nat) {x0 y0 n : Nat} (p : Framebuffer × Bool) (hx : x0 < 256) (hy : y0 < 256)
    (hn : n ≤ 32) :
    (drawSprite m a x0 y0 n p).2 = true ↔
      p.2 = true ∨ ∃ px py, p.1.pixel px py = true ∧ spriteAt m a x0 y0 n px py = true := by
  induction n with
  | zero => simp [drawSprite, spriteAt]
  | succ n ih =>
    have ih := ih (by omega)
    have hp := fun px py => pixel_drawSprite m a p hx hy (show n ≤ 32 by omega) px py
    have hself := (row_eq_iff hy (show n < 32 by omega) (row y0 n)).mp rfl
    unfold drawSprite at ih hp ⊢
    rw [List.range_succ, List.foldl_append, List.foldl_cons, List.foldl_nil]
    generalize (List.range n).foldl (fun p r => drawRow (m.read (a + r)) x0 (row y0 r) p) p = q at ih hp ⊢
    rw [drawRow, hit_drawCells _ _ _ hx (by omega), ih]
    simp only [hp]
    constructor
    · rintro ((h | ⟨px, py, h1, h2⟩) | ⟨px, h1, h2, h3⟩)
      · exact .inl h
      · refine .inr ⟨px, py, h1, ?_⟩
        simp only [spriteAt, Bool.and_eq_true, decide_eq_true_eq] at h2 ⊢
        exact ⟨by omega, h2.2⟩
      · refine .inr ⟨px, row y0 n, ?_, ?_⟩
        · simpa [spriteAt, hself] using h3
        · simp [spriteAt, hself, h1, h2]
    · rintro (h | ⟨px, py, h1, h2⟩)
      · exact .inl (.inl h)
      · simp only [spriteAt, Bool.and_eq_true, decide_eq_true_eq] at h2
        obtain ⟨h2, h3, h4⟩ := h2
        by_cases hr : spriteRow y0 py = n
        · refine .inr ⟨px, h3, hr ▸ h4, ?_⟩
          rw [← (row_eq_iff hy (show n < 32 by omega) py).mpr hr]
          simp [spriteAt, hr, h1]
        · refine .inl (.inr ⟨px, py, h1, ?_⟩)
          simp only [spriteAt, Bool.and_eq_true, decide_eq_true_eq]
          exact ⟨by omega, h3, h4⟩

/-- The sprite bit that `DRW` puts on a pixel, in the terms of the statements. -/
theorem spriteAt_eq_spritePixel (s : State) (x0 y0 : Byte) (n : Nibble) (px : Fin 64) (py : Fin 32) :
    spriteAt s.mem (s.effAddr 0) x0.toNat y0.toNat n.toNat px py = s.spritePixel x0 y0 n px py := by
  simp [spriteAt, State.spritePixel, spriteBit, State.readByte, State.effAddr]

end Sys2Proof.Machine
end

