-- ==== Sys2Proof/Laws/Operands.lean ====
section
/-! SUPPORT. What each operand form and each flag computation gives, as numbers: one lemma for each, cited instead of
unfolding it. -/

namespace Sys2Proof.Machine

/-! ### Addresses and targets -/

theorem target_toNat (nnn : Addr) : (target nnn).toNat = nnn.toNat := by
  have := nnn.isLt
  simp [target]
  omega

theorem offsetTarget_toNat (b : Byte) (nnn : Addr) :
    (offsetTarget b nnn).toNat = (b.toNat + nnn.toNat) % 4096 := by
  simp [offsetTarget]
  omega

theorem sumAddr_toNat (a : Addr) (b : Byte) : (sumAddr a b).toNat = (a.toNat + b.toNat) % 4096 := by
  simp [sumAddr]

theorem fontAddr_toNat (b : Byte) : (fontAddr b).toNat = 5 * b.toNat := by
  have := b.isLt
  simp [fontAddr, Config.fontBase, Config.glyphSize]
  omega

/-- The first effective address is I itself, so it lies in memory. -/
theorem effAddr_zero_inside (s : State) : s.effAddr 0 < Config.memSize := by
  have := s.i.isLt
  simp only [State.effAddr, Config.memSize]
  omega

/-! ### Decimal digits -/

theorem hundreds_toNat (b : Byte) : (hundreds b).toNat = b.toNat / 100 := by
  have := b.isLt
  simp [hundreds]
  omega

theorem tens_toNat (b : Byte) : (tens b).toNat = b.toNat / 10 % 10 := by
  simp [tens]
  omega

theorem units_toNat (b : Byte) : (units b).toNat = b.toNat % 10 := by
  simp [units]
  omega

/-! ### Keys -/

theorem pressed_iff (s : State) (k : Byte) :
    s.pressed k = true ↔ k.toNat < 16 ∧ s.keys.getLsbD k.toNat = true := by
  simp [State.pressed]

theorem lowestKey_eq_none_iff (s : State) : s.lowestKey = none ↔ ∀ k, k < 16 → s.keys.getLsbD k = false := by
  simp [State.lowestKey]

/-- A key the wait finds is a pressed one, and no lower one is pressed. -/
theorem lowestKey_eq_some {s : State} {b : Byte} (h : s.lowestKey = some b) :
    b.toNat < 16 ∧ s.keys.getLsbD b.toNat = true ∧ ∀ k, k < b.toNat → s.keys.getLsbD k = false := by
  simp only [State.lowestKey, Option.map_eq_some_iff] at h
  obtain ⟨j, hj, rfl⟩ := h
  have h1 := List.find?_some hj
  have h2 := List.mem_range.mp (List.mem_of_find?_eq_some hj)
  have e : (BitVec.ofNat 8 j).toNat = j := by simp; omega
  rw [e]
  refine ⟨h2, h1, fun k hk => ?_⟩
  rw [List.find?_range_eq_some] at hj
  simpa using hj.2.2 k hk

/-! ### Flags -/

/-- The carry test of the source is the carry (42_arithmetic_logic.md R172). -/
theorem carryFlag_add (a b : Byte) : carryFlag (a + b) a = (if 256 ≤ a.toNat + b.toNat then 1#8 else 0#8) := by
  have := a.isLt
  have := b.isLt
  simp only [carryFlag, flagByte, BitVec.toNat_add, decide_eq_true_eq]
  congr 1
  simp only [eq_iff_iff]
  omega

/-- The borrow test of the source is the borrow (42_arithmetic_logic.md R173). -/
theorem noBorrowFlag_sub (a b : Byte) : noBorrowFlag (a - b) a = (if a.toNat < b.toNat then 0#8 else 1#8) := by
  have := a.isLt
  have := b.isLt
  simp only [noBorrowFlag, flagByte, BitVec.toNat_sub]
  by_cases h : a.toNat < b.toNat
  · rw [if_pos h, if_neg (by simp; omega)]
  · rw [if_neg h, if_pos (by simp; omega)]

theorem lowBitFlag_toNat (b : Byte) : (lowBitFlag b).toNat = b.toNat % 2 := by
  simp only [lowBitFlag, flagByte, BitVec.getLsbD, Nat.testBit_zero]
  by_cases h : b.toNat % 2 = 1
  · simp [h]
  · rw [if_neg (by simpa using h)]
    simp
    omega

theorem highBitFlag_toNat (b : Byte) : (highBitFlag b).toNat = b.toNat / 128 := by
  have := b.isLt
  simp only [highBitFlag, flagByte, BitVec.getLsbD, Nat.testBit_eq_decide_div_mod_eq, decide_eq_true_eq]
  split
  · simp
    omega
  · simp
    omega

end Sys2Proof.Machine
end

