-- ==== Sys2Proof/Laws/PerInstr.lean ====
section
/-! SUPPORT. Two facts about every instruction as syntax, one lemma per constructor: the family nibble of its word is
the one of its row (30_encoding.md R87), and its word is not in the list of unrecognized words (R90). -/

namespace Sys2Proof.Laws

/-- The family of an instruction's row (30_encoding.md R87). -/
def family : Instr → Nibble
  | .cls .. => 0x0#4
  | .ret .. => 0x0#4
  | .jp .. => 0x1#4
  | .call .. => 0x2#4
  | .seImm .. => 0x3#4
  | .sneImm .. => 0x4#4
  | .seReg .. => 0x5#4
  | .ldImm .. => 0x6#4
  | .addImm .. => 0x7#4
  | .ldReg .. => 0x8#4
  | .orReg .. => 0x8#4
  | .andReg .. => 0x8#4
  | .xorReg .. => 0x8#4
  | .addReg .. => 0x8#4
  | .sub .. => 0x8#4
  | .shr .. => 0x8#4
  | .subn .. => 0x8#4
  | .shl .. => 0x8#4
  | .sneReg .. => 0x9#4
  | .ldI .. => 0xA#4
  | .jpV0 .. => 0xB#4
  | .rnd .. => 0xC#4
  | .drw .. => 0xD#4
  | .skp .. => 0xE#4
  | .sknp .. => 0xE#4
  | .ldVxDt .. => 0xF#4
  | .ldVxK .. => 0xF#4
  | .ldDtVx .. => 0xF#4
  | .ldStVx .. => 0xF#4
  | .addI .. => 0xF#4
  | .ldF .. => 0xF#4
  | .ldB .. => 0xF#4
  | .ldMemVx .. => 0xF#4
  | .ldVxMem .. => 0xF#4

/-! ### The family nibble -/

namespace FamilyNibble

/-- The family nibble of the word is the family of the row. -/
def Statement (i : Instr) : Prop := (encode i).fieldF = family i

theorem cls (z : Byte) : Statement (.cls z) := fieldF_O _ _ _
theorem ret (z : Byte) : Statement (.ret z) := fieldF_O _ _ _
theorem jp (nnn : Addr) : Statement (.jp nnn) := fieldF_A _ _
theorem call (nnn : Addr) : Statement (.call nnn) := fieldF_A _ _
theorem seImm (x : RegIdx) (nn : Byte) : Statement (.seImm x nn) := fieldF_XK _ _ _
theorem sneImm (x : RegIdx) (nn : Byte) : Statement (.sneImm x nn) := fieldF_XK _ _ _
theorem seReg (x : RegIdx) (y : RegIdx) (z : Nibble) : Statement (.seReg x y z) := fieldF_XY _ _ _ _
theorem ldImm (x : RegIdx) (nn : Byte) : Statement (.ldImm x nn) := fieldF_XK _ _ _
theorem addImm (x : RegIdx) (nn : Byte) : Statement (.addImm x nn) := fieldF_XK _ _ _
theorem ldReg (x : RegIdx) (y : RegIdx) : Statement (.ldReg x y) := fieldF_XY _ _ _ _
theorem orReg (x : RegIdx) (y : RegIdx) : Statement (.orReg x y) := fieldF_XY _ _ _ _
theorem andReg (x : RegIdx) (y : RegIdx) : Statement (.andReg x y) := fieldF_XY _ _ _ _
theorem xorReg (x : RegIdx) (y : RegIdx) : Statement (.xorReg x y) := fieldF_XY _ _ _ _
theorem addReg (x : RegIdx) (y : RegIdx) : Statement (.addReg x y) := fieldF_XY _ _ _ _
theorem sub (x : RegIdx) (y : RegIdx) : Statement (.sub x y) := fieldF_XY _ _ _ _
theorem shr (x : RegIdx) (y : RegIdx) : Statement (.shr x y) := fieldF_XY _ _ _ _
theorem subn (x : RegIdx) (y : RegIdx) : Statement (.subn x y) := fieldF_XY _ _ _ _
theorem shl (x : RegIdx) (y : RegIdx) : Statement (.shl x y) := fieldF_XY _ _ _ _
theorem sneReg (x : RegIdx) (y : RegIdx) (z : Nibble) : Statement (.sneReg x y z) := fieldF_XY _ _ _ _
theorem ldI (nnn : Addr) : Statement (.ldI nnn) := fieldF_A _ _
theorem jpV0 (nnn : Addr) : Statement (.jpV0 nnn) := fieldF_A _ _
theorem rnd (x : RegIdx) (nn : Byte) : Statement (.rnd x nn) := fieldF_XK _ _ _
theorem drw (x : RegIdx) (y : RegIdx) (n : Nibble) : Statement (.drw x y n) := fieldF_XY _ _ _ _
theorem skp (x : RegIdx) : Statement (.skp x) := fieldF_XK _ _ _
theorem sknp (x : RegIdx) : Statement (.sknp x) := fieldF_XK _ _ _
theorem ldVxDt (x : RegIdx) : Statement (.ldVxDt x) := fieldF_XK _ _ _
theorem ldVxK (x : RegIdx) : Statement (.ldVxK x) := fieldF_XK _ _ _
theorem ldDtVx (x : RegIdx) : Statement (.ldDtVx x) := fieldF_XK _ _ _
theorem ldStVx (x : RegIdx) : Statement (.ldStVx x) := fieldF_XK _ _ _
theorem addI (x : RegIdx) : Statement (.addI x) := fieldF_XK _ _ _
theorem ldF (x : RegIdx) : Statement (.ldF x) := fieldF_XK _ _ _
theorem ldB (x : RegIdx) : Statement (.ldB x) := fieldF_XK _ _ _
theorem ldMemVx (x : RegIdx) : Statement (.ldMemVx x) := fieldF_XK _ _ _
theorem ldVxMem (x : RegIdx) : Statement (.ldVxMem x) := fieldF_XK _ _ _

end FamilyNibble

/-! ### A recognized word -/

/-- The families with a secondary key (30_encoding.md R86). -/
def keyed (f : Nibble) : Bool := f = 0x0#4 || f = 0x8#4 || f = 0xE#4 || f = 0xF#4

/-- A word of a family without a secondary key is recognized (30_encoding.md R86). -/
theorem wellFormedWord_unkeyed {w : Word} {f : Nibble} (h : w.fieldF = f) (hk : keyed f = false) :
    wellFormedWord w = true := by
  subst h
  have key : ∀ k : Nibble, keyed k = true → w.toNat / 4096 ≠ k.toNat := fun k hk' e => by
    rw [← fieldF_toNat] at e
    rw [BitVec.eq_of_toNat_eq e, hk'] at hk
    contradiction
  have k0 : w.toNat / 4096 ≠ 0x0 := key 0x0#4 rfl
  have k8 : w.toNat / 4096 ≠ 0x8 := key 0x8#4 rfl
  have kE : w.toNat / 4096 ≠ 0xE := key 0xE#4 rfl
  have kF : w.toNat / 4096 ≠ 0xF := key 0xF#4 rfl
  unfold wellFormedWord
  rw [if_neg k0, if_neg k8, if_neg kE, if_neg kF]

/-- A word of family 0x0 with one of its keys is recognized (30_encoding.md R90). -/
theorem wellFormedWord_0 {w : Word} {k : Nibble} (h : w.fieldF = 0x0#4) (hn : w.fieldN = k)
    (hk : wellFormedFamily0 k = true) : wellFormedWord w = true := by
  subst hn
  unfold wellFormedWord
  rw [← fieldF_toNat, ← fieldN_eq, h]
  exact hk

/-- A word of family 0x8 with one of its keys is recognized (30_encoding.md R90). -/
theorem wellFormedWord_8 {w : Word} {k : Nibble} (h : w.fieldF = 0x8#4) (hn : w.fieldN = k)
    (hk : wellFormedFamily8 k = true) : wellFormedWord w = true := by
  subst hn
  unfold wellFormedWord
  rw [← fieldF_toNat, ← fieldN_eq, h]
  exact hk

/-- A word of family 0xE with one of its keys is recognized (30_encoding.md R90). -/
theorem wellFormedWord_E {w : Word} {k : Byte} (h : w.fieldF = 0xE#4) (hn : w.fieldNN = k)
    (hk : wellFormedFamilyE k = true) : wellFormedWord w = true := by
  subst hn
  unfold wellFormedWord
  rw [← fieldF_toNat, ← fieldNN_eq, h]
  exact hk

/-- A word of family 0xF with one of its keys is recognized (30_encoding.md R90). -/
theorem wellFormedWord_F {w : Word} {k : Byte} (h : w.fieldF = 0xF#4) (hn : w.fieldNN = k)
    (hk : wellFormedFamilyF k = true) : wellFormedWord w = true := by
  subst hn
  unfold wellFormedWord
  rw [← fieldF_toNat, ← fieldNN_eq, h]
  exact hk

namespace RecognizedWord

/-- The word is not one of the unrecognized words of 30_encoding.md R90. -/
def Statement (i : Instr) : Prop := wellFormedWord (encode i) = true

theorem cls (z : Byte) : Statement (.cls z) :=
  wellFormedWord_0 (FamilyNibble.cls z) (fieldN_O _ _ _) rfl
theorem ret (z : Byte) : Statement (.ret z) :=
  wellFormedWord_0 (FamilyNibble.ret z) (fieldN_O _ _ _) rfl
theorem jp (nnn : Addr) : Statement (.jp nnn) :=
  wellFormedWord_unkeyed (FamilyNibble.jp nnn) rfl
theorem call (nnn : Addr) : Statement (.call nnn) :=
  wellFormedWord_unkeyed (FamilyNibble.call nnn) rfl
theorem seImm (x : RegIdx) (nn : Byte) : Statement (.seImm x nn) :=
  wellFormedWord_unkeyed (FamilyNibble.seImm x nn) rfl
theorem sneImm (x : RegIdx) (nn : Byte) : Statement (.sneImm x nn) :=
  wellFormedWord_unkeyed (FamilyNibble.sneImm x nn) rfl
theorem seReg (x : RegIdx) (y : RegIdx) (z : Nibble) : Statement (.seReg x y z) :=
  wellFormedWord_unkeyed (FamilyNibble.seReg x y z) rfl
theorem ldImm (x : RegIdx) (nn : Byte) : Statement (.ldImm x nn) :=
  wellFormedWord_unkeyed (FamilyNibble.ldImm x nn) rfl
theorem addImm (x : RegIdx) (nn : Byte) : Statement (.addImm x nn) :=
  wellFormedWord_unkeyed (FamilyNibble.addImm x nn) rfl
theorem ldReg (x : RegIdx) (y : RegIdx) : Statement (.ldReg x y) :=
  wellFormedWord_8 (FamilyNibble.ldReg x y) (fieldN_XY _ _ _ _) rfl
theorem orReg (x : RegIdx) (y : RegIdx) : Statement (.orReg x y) :=
  wellFormedWord_8 (FamilyNibble.orReg x y) (fieldN_XY _ _ _ _) rfl
theorem andReg (x : RegIdx) (y : RegIdx) : Statement (.andReg x y) :=
  wellFormedWord_8 (FamilyNibble.andReg x y) (fieldN_XY _ _ _ _) rfl
theorem xorReg (x : RegIdx) (y : RegIdx) : Statement (.xorReg x y) :=
  wellFormedWord_8 (FamilyNibble.xorReg x y) (fieldN_XY _ _ _ _) rfl
theorem addReg (x : RegIdx) (y : RegIdx) : Statement (.addReg x y) :=
  wellFormedWord_8 (FamilyNibble.addReg x y) (fieldN_XY _ _ _ _) rfl
theorem sub (x : RegIdx) (y : RegIdx) : Statement (.sub x y) :=
  wellFormedWord_8 (FamilyNibble.sub x y) (fieldN_XY _ _ _ _) rfl
theorem shr (x : RegIdx) (y : RegIdx) : Statement (.shr x y) :=
  wellFormedWord_8 (FamilyNibble.shr x y) (fieldN_XY _ _ _ _) rfl
theorem subn (x : RegIdx) (y : RegIdx) : Statement (.subn x y) :=
  wellFormedWord_8 (FamilyNibble.subn x y) (fieldN_XY _ _ _ _) rfl
theorem shl (x : RegIdx) (y : RegIdx) : Statement (.shl x y) :=
  wellFormedWord_8 (FamilyNibble.shl x y) (fieldN_XY _ _ _ _) rfl
theorem sneReg (x : RegIdx) (y : RegIdx) (z : Nibble) : Statement (.sneReg x y z) :=
  wellFormedWord_unkeyed (FamilyNibble.sneReg x y z) rfl
theorem ldI (nnn : Addr) : Statement (.ldI nnn) :=
  wellFormedWord_unkeyed (FamilyNibble.ldI nnn) rfl
theorem jpV0 (nnn : Addr) : Statement (.jpV0 nnn) :=
  wellFormedWord_unkeyed (FamilyNibble.jpV0 nnn) rfl
theorem rnd (x : RegIdx) (nn : Byte) : Statement (.rnd x nn) :=
  wellFormedWord_unkeyed (FamilyNibble.rnd x nn) rfl
theorem drw (x : RegIdx) (y : RegIdx) (n : Nibble) : Statement (.drw x y n) :=
  wellFormedWord_unkeyed (FamilyNibble.drw x y n) rfl
theorem skp (x : RegIdx) : Statement (.skp x) :=
  wellFormedWord_E (FamilyNibble.skp x) (fieldNN_XK _ _ _) rfl
theorem sknp (x : RegIdx) : Statement (.sknp x) :=
  wellFormedWord_E (FamilyNibble.sknp x) (fieldNN_XK _ _ _) rfl
theorem ldVxDt (x : RegIdx) : Statement (.ldVxDt x) :=
  wellFormedWord_F (FamilyNibble.ldVxDt x) (fieldNN_XK _ _ _) rfl
theorem ldVxK (x : RegIdx) : Statement (.ldVxK x) :=
  wellFormedWord_F (FamilyNibble.ldVxK x) (fieldNN_XK _ _ _) rfl
theorem ldDtVx (x : RegIdx) : Statement (.ldDtVx x) :=
  wellFormedWord_F (FamilyNibble.ldDtVx x) (fieldNN_XK _ _ _) rfl
theorem ldStVx (x : RegIdx) : Statement (.ldStVx x) :=
  wellFormedWord_F (FamilyNibble.ldStVx x) (fieldNN_XK _ _ _) rfl
theorem addI (x : RegIdx) : Statement (.addI x) :=
  wellFormedWord_F (FamilyNibble.addI x) (fieldNN_XK _ _ _) rfl
theorem ldF (x : RegIdx) : Statement (.ldF x) :=
  wellFormedWord_F (FamilyNibble.ldF x) (fieldNN_XK _ _ _) rfl
theorem ldB (x : RegIdx) : Statement (.ldB x) :=
  wellFormedWord_F (FamilyNibble.ldB x) (fieldNN_XK _ _ _) rfl
theorem ldMemVx (x : RegIdx) : Statement (.ldMemVx x) :=
  wellFormedWord_F (FamilyNibble.ldMemVx x) (fieldNN_XK _ _ _) rfl
theorem ldVxMem (x : RegIdx) : Statement (.ldVxMem x) :=
  wellFormedWord_F (FamilyNibble.ldVxMem x) (fieldNN_XK _ _ _) rfl

end RecognizedWord

end Sys2Proof.Laws
end

