-- ==== Sys2Proof/Tests/Slice0.lean ====
section
/-! SUPPORT. The model's own tests and the witnesses of its statements. Expected results are those of the spec's
vectors and worked examples (95_test_vectors.md, whose section each group names), or written out by hand from its
encodings (30_encoding.md R83, R87); none is the model's own answer. -/

namespace Sys2Proof.Tests

open Sys2Proof.Machine

/-- One step from the creation state, changed by `f`, with the word `w` placed at the program counter. -/
def runWord (w : Nat) (f : State → State) : Result := step ((f State.reset).withFetchWord 16 w)

/-- The same under STRICT_SECONDARY. -/
def runStrict (w : Nat) (f : State → State) : Result :=
  cycle Config.strict ((f State.reset).withFetchWord 16 w)

/-- The answer is a next state with the property. -/
def nextHas (r : Result) (p : State → Bool) : Bool :=
  match r with
  | .next t => p t
  | _ => false

/-- The creation state unchanged. -/
def same (s : State) : State := s

/-- The creation state with the program counter at `a`. -/
def pcAt (a : Word) : State := State.reset.setPc a

/-- The bytes from `a` on, `n` of them. -/
def bytesAt (t : State) (a n : Nat) : List Byte := (List.range n).map fun k => t.readByte (a + k)

/-- How many pixels are on. -/
def pixelsOn (t : State) : Nat := (t.fb.toList.map fun r => (r.toList.filter id).length).sum

/-- Turns a pixel on. -/
def lit (x : Fin 64) (y : Fin 32) (s : State) : State := s.setFb (Framebuffer.setPixel s.fb x y true)

/-! ### Decoding (95_test_vectors.md 2.1; the words written out from 30_encoding.md R87) -/

theorem test_decode_family_0_to_4 :
    [0x00E0, 0x00EE, 0x1234, 0x2300, 0x3310, 0x4310].map (decodeTableWord 16) =
      [some (.cls 0x0E), some (.ret 0x0E), some (.jp 0x234), some (.call 0x300), some (.seImm 3 0x10),
        some (.sneImm 3 0x10)] := by decide

theorem test_decode_family_5_6_7_9 :
    [0x5121, 0x6A42, 0x7120, 0x912F].map (decodeTableWord 16) =
      [some (.seReg 1 2 1), some (.ldImm 0xA 0x42), some (.addImm 1 0x20), some (.sneReg 1 2 0xF)] := by decide

theorem test_decode_family_8 :
    [0x8AB0, 0x8AB1, 0x8AB2, 0x8AB3, 0x8AB4, 0x8AB5, 0x8AB6, 0x8AB7, 0x8ABE].map (decodeTableWord 16) =
      [some (.ldReg 0xA 0xB), some (.orReg 0xA 0xB), some (.andReg 0xA 0xB), some (.xorReg 0xA 0xB),
        some (.addReg 0xA 0xB), some (.sub 0xA 0xB), some (.shr 0xA 0xB), some (.subn 0xA 0xB),
        some (.shl 0xA 0xB)] := by decide

theorem test_decode_family_A_to_E :
    [0xABCD, 0xB300, 0xC30F, 0xD01F, 0xE29E, 0xE2A1].map (decodeTableWord 16) =
      [some (.ldI 0xBCD), some (.jpV0 0x300), some (.rnd 3 0x0F), some (.drw 0 1 0xF), some (.skp 2),
        some (.sknp 2)] := by decide

theorem test_decode_family_F :
    [0xF307, 0xF50A, 0xF415, 0xF418, 0xF21E, 0xFA29, 0xF133, 0xFF55, 0xF165].map (decodeTableWord 16) =
      [some (.ldVxDt 3), some (.ldVxK 5), some (.ldDtVx 4), some (.ldStVx 4), some (.addI 2), some (.ldF 0xA),
        some (.ldB 1), some (.ldMemVx 0xF), some (.ldVxMem 1)] := by decide

/-- Each word check refuses an ill-formed word, and the decoder rejects the same one. -/
theorem test_ill_formed_words_are_refused :
    [0x0123#16, 0x8AB8#16, 0xE1A2#16, 0xF0FF#16].map (fun w => (wellFormedWord w, decode w)) =
      [(false, .error .unrecognizedSecondary), (false, .error .unrecognizedSecondary),
        (false, .error .unrecognizedSecondary), (false, .error .unrecognizedSecondary)] := by decide

theorem test_well_formed_words_are_accepted :
    [0x0120#16, 0x0FFE#16, 0x812E#16, 0xE1A1#16, 0xF165#16, 0x5121#16].map wellFormedWord =
      [true, true, true, true, true, true] := by decide

theorem test_no_two_rows_of_the_map_overlap :
    opcodeMap.Pairwise (fun a b => (a.2.1 &&& b.2.1) &&& a.2.2 ≠ (a.2.1 &&& b.2.1) &&& b.2.2) := by decide

/-! ### Control flow (95_test_vectors.md 2.2) -/

theorem test_ret_takes_the_last_pushed :
    nextHas (runWord 0x00EE fun s => ((s.setPc 0x300).push 0x202).push 0x400)
      (fun t => t.pc == 0x400 && t.stack == [0x202]) = true := by decide

theorem test_ret_on_an_empty_stack :
    nextHas (runWord 0x00EE fun s => s.setPc 0x300) (fun t => t.pc == 0x302 && t.stack == []) = true := by decide

theorem test_jp : nextHas (runWord 0x1FFF same) (fun t => t.pc == 0xFFF && t.fault == none) = true := by decide

theorem test_call : nextHas (runWord 0x2300 same) (fun t => t.pc == 0x300 && t.stack == [0x202]) = true := by decide

theorem test_se_imm_taken : nextHas (runWord 0x3310 fun s => s.setReg 3 0x10) (fun t => t.pc == 0x204) = true := by decide

theorem test_se_imm_past_memory :
    nextHas (runWord 0x3000 fun s => s.setPc 0xFFC)
      (fun t => t.pc == 0xFFC && t.fault == some ⟨.boundsFault, 0xFFC, 0x3000⟩) = true := by decide

theorem test_sne_imm_taken : nextHas (runWord 0x4310 fun s => s.setReg 3 0x11) (fun t => t.pc == 0x204) = true := by decide

theorem test_sne_imm_not_taken :
    nextHas (runWord 0x4310 fun s => s.setReg 3 0x10) (fun t => t.pc == 0x202) = true := by decide

theorem test_se_reg :
    nextHas (runWord 0x5120 fun s => (s.setReg 1 7).setReg 2 7) (fun t => t.pc == 0x204) = true := by decide

theorem test_sne_reg :
    nextHas (runWord 0x9120 fun s => (s.setReg 1 7).setReg 2 8) (fun t => t.pc == 0x204) = true := by decide

theorem test_jp_v0_wraps : nextHas (runWord 0xBFFF fun s => s.setReg 0 0xFF) (fun t => t.pc == 0x0FE) = true := by decide

/-! ### Arithmetic and logic (95_test_vectors.md 2.3) -/

theorem test_ld_imm : nextHas (runWord 0x6A42 same) (fun t => t.reg 0xA == 0x42) = true := by decide

theorem test_add_imm_leaves_the_flag :
    nextHas (runWord 0x7120 fun s => (s.setReg 1 0xF0).setReg vf 7) (fun t => t.reg 1 == 0x10 && t.reg vf == 7) = true := by
  decide

theorem test_ld_reg : nextHas (runWord 0x8120 fun s => s.setReg 2 0x33) (fun t => t.reg 1 == 0x33) = true := by decide

theorem test_or :
    nextHas (runWord 0x8121 fun s => ((s.setReg 1 0x0F).setReg 2 0xF0).setReg vf 5)
      (fun t => t.reg 1 == 0xFF && t.reg vf == 5) = true := by decide

theorem test_and :
    nextHas (runWord 0x8122 fun s => ((s.setReg 1 0x3C).setReg 2 0x0F).setReg vf 5)
      (fun t => t.reg 1 == 0x0C && t.reg vf == 5) = true := by decide

theorem test_xor :
    nextHas (runWord 0x8123 fun s => ((s.setReg 1 0xFF).setReg 2 0x0F).setReg vf 5)
      (fun t => t.reg 1 == 0xF0 && t.reg vf == 5) = true := by decide

theorem test_add_carry :
    nextHas (runWord 0x8124 fun s => (s.setReg 1 0xFF).setReg 2 0xFF)
      (fun t => t.reg 1 == 0xFE && t.reg vf == 1) = true := by decide

theorem test_add_into_vf :
    nextHas (runWord 0x8F24 fun s => (s.setReg vf 0xFF).setReg 2 1) (fun t => t.reg vf == 1) = true := by decide

theorem test_sub_borrow :
    nextHas (runWord 0x8125 fun s => (s.setReg 1 5).setReg 2 7)
      (fun t => t.reg 1 == 0xFE && t.reg vf == 0) = true := by decide

theorem test_sub_equal :
    nextHas (runWord 0x8115 fun s => s.setReg 1 9) (fun t => t.reg 1 == 0 && t.reg vf == 1) = true := by decide

theorem test_shr :
    nextHas (runWord 0x8126 fun s => (s.setReg 1 5).setReg 2 0xFF)
      (fun t => t.reg 1 == 2 && t.reg vf == 1 && t.reg 2 == 0xFF) = true := by decide

theorem test_shr_of_vf : nextHas (runWord 0x8F06 fun s => s.setReg vf 5) (fun t => t.reg vf == 2) = true := by decide

theorem test_subn :
    nextHas (runWord 0x8127 fun s => (s.setReg 1 7).setReg 2 5)
      (fun t => t.reg 1 == 0xFE && t.reg vf == 0) = true := by decide

theorem test_shl :
    nextHas (runWord 0x812E fun s => s.setReg 1 0x81) (fun t => t.reg 1 == 2 && t.reg vf == 1) = true := by decide

theorem test_shl_of_vf : nextHas (runWord 0x8F0E fun s => s.setReg vf 0x81) (fun t => t.reg vf == 2) = true := by decide

/-- "any draw, C300: V3 = 0x00", whatever the byte drawn. -/
theorem test_rnd_masks :
    exec (.rnd 3 0x00) (State.reset.setReg 3 9) =
      .next (((State.reset.setReg 3 9).nextDraw).setReg 3 (Config.freeByte 0 &&& 0x00)) := rfl

/-! ### Address register and memory (95_test_vectors.md 2.4) -/

theorem test_ld_i : nextHas (runWord 0xA2F0 same) (fun t => t.i == 0x2F0) = true := by decide

theorem test_add_i_wraps :
    nextHas (runWord 0xF21E fun s => (s.setI 0xF80).setReg 2 0xFF) (fun t => t.i == 0x07F && t.reg vf == 0) = true := by
  decide

theorem test_ld_f_takes_the_whole_byte :
    nextHas (runWord 0xFA29 fun s => s.setReg 0xA 0xFF) (fun t => t.i == 0x4FB) = true := by decide

theorem test_ld_b :
    nextHas (runWord 0xF133 fun s => (s.setI 0x300).setReg 1 255) (fun t => bytesAt t 0x300 3 == [2, 5, 5]) = true := by
  decide

theorem test_ld_b_at_the_end_of_memory :
    nextHas (runWord 0xF133 fun s => (s.setI 0xFFE).setReg 1 123)
      (fun t => bytesAt t 0xFFE 2 == [1, 2] && t.i == 0xFFE && t.readByte 0 == 0) = true := by decide

theorem test_dump :
    nextHas (runWord 0xF255 fun s => (((s.setI 0x400).setReg 0 1).setReg 1 2).setReg 2 3)
      (fun t => bytesAt t 0x400 4 == [1, 2, 3, 0] && t.i == 0x400) = true := by decide

theorem test_dump_stops_at_the_end_of_memory :
    nextHas (runWord 0xFF55 fun s => ((s.setI 0xFFA).setReg 5 5).setReg 6 6)
      (fun t => bytesAt t 0xFFA 6 == [0, 0, 0, 0, 0, 5] && t.readByte 0 == 0) = true := by decide

theorem test_load :
    nextHas (runWord 0xFF65 fun s => ((s.setI 0x400).writeByte 0x400 0x0A).writeByte 0x40F 0x55)
      (fun t => t.reg 0 == 0x0A && t.reg vf == 0x55 && t.i == 0x400) = true := by decide

theorem test_load_stops_at_the_end_of_memory :
    nextHas (runWord 0xF365 fun s => ((s.setI 0xFFF).writeByte 0xFFF 0x77).setReg 1 1)
      (fun t => t.reg 0 == 0x77 && t.reg 1 == 1) = true := by decide

/-! ### Display (95_test_vectors.md 2.5) -/

theorem test_cls :
    nextHas (runWord 0x00E0 fun s => lit 0 0 (lit 63 31 s)) (fun t => pixelsOn t == 0) = true := by decide

theorem test_drw_wraps_the_column :
    nextHas (runWord 0xD011 fun s => (((s.setReg 0 63).setReg 1 31).setI 0x300).writeByte 0x300 0xC0)
      (fun t => pixelsOn t == 2 && t.pixel 63 31 && t.pixel 0 31 && t.reg vf == 0) = true := by decide

theorem test_drw_collision_is_cumulative :
    nextHas (runWord 0xD012 fun s => lit 0 0 (((s.setI 0x300).writeByte 0x300 0x80).writeByte 0x301 0x40))
      (fun t => pixelsOn t == 1 && t.pixel 1 1 && t.reg vf == 1) = true := by decide

/-! ### Keypad and timers (95_test_vectors.md 2.6) -/

theorem test_skp :
    nextHas (runWord 0xE29E fun s => (s.setKeys 0x0020).setReg 2 5) (fun t => t.pc == 0x204) = true := by decide

theorem test_skp_of_key_16 :
    nextHas (runWord 0xE29E fun s => (s.setKeys 0xFFFF).setReg 2 0x10) (fun t => t.pc == 0x202) = true := by decide

theorem test_sknp :
    nextHas (runWord 0xE2A1 fun s => (s.setKeys 0x0020).setReg 2 5) (fun t => t.pc == 0x202) = true := by decide

theorem test_sknp_of_key_16 :
    nextHas (runWord 0xE2A1 fun s => s.setReg 2 0x10) (fun t => t.pc == 0x204) = true := by decide

theorem test_ld_vx_dt : nextHas (runWord 0xF307 fun s => s.setDt 0x3C) (fun t => t.reg 3 == 0x3C) = true := by decide

theorem test_wait_takes_the_lowest_key :
    nextHas (runWord 0xF50A fun s => s.setKeys 0x0208) (fun t => t.reg 5 == 3 && t.pc == 0x202) = true := by decide

theorem test_wait_stays :
    nextHas (runWord 0xF50A fun s => s.setPc 0x208) (fun t => t.reg 5 == 0 && t.pc == 0x208) = true := by decide

theorem test_ld_dt : nextHas (runWord 0xF415 fun s => s.setReg 4 0x3C) (fun t => t.dt == 0x3C) = true := by decide

theorem test_ld_st_requests_a_tone :
    nextHas (runWord 0xF418 fun s => s.setReg 4 0x1E) (fun t => t.st == 0x1E && t.tones == [30]) = true := by decide

theorem test_ld_st_zero_is_silent :
    nextHas (runWord 0xF418 fun s => s.setSt 9) (fun t => t.st == 0 && t.tones == []) = true := by decide

/-! ### Cycle, faults and host operations (95_test_vectors.md 2.6, 2.7) -/

theorem test_advance_past_memory :
    nextHas (runWord 0x1200 fun s => s.setPc 0xFFF)
      (fun t => t.pc == 0xFFF && t.fault == some ⟨.boundsFault, 0xFFF, 0x1200⟩) = true := by decide

theorem test_last_odd_address_runs :
    nextHas (runWord 0x6001 fun s => s.setPc 0xFFD) (fun t => t.reg 0 == 1 && t.pc == 0xFFF) = true := by decide

theorem test_strict_decode_fault_first :
    nextHas (runStrict 0xF0FF fun s => s.setPc 0xFFE)
      (fun t => t.pc == 0xFFE && t.fault == some ⟨.decodeFault, 0xFFE, 0xF0FF⟩) = true := by decide

theorem test_unrecognized_word_is_no_operation :
    nextHas (runWord 0x8008 same) (fun t => t.pc == 0x202 && t.fault == none) = true := by decide

theorem test_halted_core_ticks :
    (let s := (State.reset.takeFault .boundsFault 0xFFE 0x00E0).setDt 3
     (transact Config.canonical .emulateCycle s).2 == .fatal ⟨.boundsFault, 0xFFE, 0x00E0⟩ &&
      (transact Config.canonical .decrementTimers s).1.dt == 2) = true := by decide

theorem test_tick :
    (let t := decrementTimers ((State.reset.setDt 0xFF).setSt 0)
     t.dt == 0xFE && t.st == 0) = true := by decide

theorem test_load_truncates :
    (let r := load [0xAA, 0xBB, 0xCC] (.integer 4094) State.reset
     bytesAt r.1 4094 2 == [0xAA, 0xBB] && r.1.readByte 0 == 0 && r.2 == .ok) = true := by decide

theorem test_load_rejects :
    [(load [1] (.integer (-1)) State.reset).2, (load [0x100] (.integer 0) State.reset).2, (load [1] .other State.reset).2,
      (load [1] (.integer 4096) State.reset).2] =
      [.loadRangeError, .inputValidationError, .inputValidationError, .ok] := by decide

theorem test_keys :
    [(setKeyPressed 4 State.reset).1.keys, (setKeyReleased 4 (State.reset.setKeys 0x0011)).1.keys,
      (setKeyReleased 7 (State.reset.setKeys 0x0010)).1.keys, (setKeyPressed 16 State.reset).1.keys] =
      [0x0010#16, 0x0001#16, 0x0010#16, 0x0000#16] := by decide

theorem test_reply_codes :
    [Reply.ok, .fatal ⟨.decodeFault, 0, 0⟩, .fatal ⟨.boundsFault, 0, 0⟩, .loadRangeError, .inputValidationError].map
      Reply.code = [0, 1, 2, 3, 4] := by decide

/-! ### Witnesses: for each statement with hypotheses, a state and operands that meet them all together, at the ends of
their ranges where the statement has several clauses. -/

/-- A core that has just halted at 0xFFE on the word 0x00E0 (95_test_vectors.md 2.7). -/
def halted : State := (pcAt 0xFFE).takeFault .boundsFault 0xFFE 0x00E0

/-- A running core with the program counter at 0xFFD, the highest value (after its own advance) at which a taken skip stays
in memory, and one register set. -/
def skipper (x : RegIdx) (b : Byte) : State := (pcAt 0xFFD).setReg x b

theorem witness_EncodeRecoversTheWord : decode 0x8AB4#16 = .ok (.addReg 0xA 0xB) := by decide

theorem witness_DecodeAgreesWithTheOpcodeMap :
    (1, 0xF00F#16, 0x0000#16) ∈ opcodeMap ∧ (34, 0xF0FF#16, 0xF065#16) ∈ opcodeMap := by decide

theorem witness_StepRunsTheDecodedInstruction :
    let s := (pcAt 0xFFD).withFetchWord 16 0x6001
    s.Running ∧ s.CanAdvance ∧
      decodeBytes [s.readByte s.pc.toNat, s.readByte (s.pc.toNat + 1)] = .ok (.ldImm 0 1, []) :=
  ⟨rfl, by show _ < _; decide, by decide⟩

theorem witness_UnrecognizedWordIsNoOperation :
    let s := (pcAt 0xFFD).withFetchWord 16 0x8008
    s.Running ∧ s.CanAdvance ∧ wellFormedWord s.fetchWord = false :=
  ⟨rfl, by show _ < _; decide, by decide⟩

theorem witness_AdvancePastMemoryFaults :
    (pcAt 0xFFE).Running ∧ ¬ (pcAt 0xFFE).CanAdvance ∧ ¬ (pcAt 0xFFF).CanAdvance :=
  ⟨rfl, by show ¬ _ < _; decide, by show ¬ _ < _; decide⟩

theorem witness_StrictDecodeFaultComesFirst :
    let s := (pcAt 0xFFE).withFetchWord 16 0xF0FF
    s.Running ∧ wellFormedWord s.fetchWord = false :=
  ⟨rfl, by decide⟩

theorem witness_HaltedCoreReturnsItsFault : halted.fault = some ⟨.boundsFault, 0xFFE, 0x00E0⟩ := rfl

theorem witness_CanonicalStepNeverDecodeFaults :
    (pcAt 0xFFE).Running ∧ ∃ t f, step (pcAt 0xFFE) = .next t ∧ t.fault = some f :=
  ⟨rfl, (pcAt 0xFFE).takeFault .boundsFault 0xFFE 0x0000, ⟨.boundsFault, 0xFFE, 0x0000⟩, rfl, rfl⟩

/-- A fault at decode, one at the advance, and one of a skip. -/
theorem witness_FaultsArePrecise :
    (let s := (pcAt 0x200).withFetchWord 16 0x8008
     nextHas (cycle Config.strict s) (fun t => t.fault == some ⟨.decodeFault, 0x200, 0x8008⟩) = true) ∧
    nextHas (cycle Config.canonical (pcAt 0xFFE)) (fun t => t.fault == some ⟨.boundsFault, 0xFFE, 0x0000⟩) = true ∧
    (let s := (pcAt 0xFFC).withFetchWord 16 0x3000
     nextHas (cycle Config.canonical s) (fun t => t.fault == some ⟨.boundsFault, 0xFFC, 0x3000⟩) = true) ∧
    (pcAt 0xFFC).Running :=
  ⟨by decide, by decide, by decide, rfl⟩

theorem witness_NoFaultAwayFromTheEndOfMemory :
    let s := (pcAt 0xFFB).withFetchWord 16 0x3000
    s.Running ∧ s.pc.toNat + 4 < Config.memSize ∧ nextHas (step s) (fun t => t.pc == 0xFFF) = true :=
  ⟨rfl, by decide, by decide⟩

theorem witness_EveryRunningCycleCompletes : State.reset.Running := rfl

/-- The invariant at creation, and a step from there. -/
theorem witness_StepKeepsTheInvariant :
    State.reset.Inv ∧ nextHas (step State.reset) (fun t => t.pc == 0x202) = true :=
  ⟨⟨by decide, fun _ h => absurd h List.not_mem_nil, by decide, fun _ h => by simp [State.reset] at h⟩, by decide⟩

theorem witness_TransactionsKeepTheInvariant : State.reset.Inv := witness_StepKeepsTheInvariant.1

theorem witness_InstructionsWriteOnlyTheirParts :
    nextHas (exec (.addReg 1 2) State.reset) (fun t => t.reg vf == 0) = true := by decide

theorem witness_TimersChangeOnlyByTheirWriters :
    let tr := transact Config.canonical .emulateCycle
    (tr ((State.reset.setReg 4 1).withFetchWord 16 0xF415)).1.dt ≠ 0 ∧
      (tr ((State.reset.setReg 4 1).withFetchWord 16 0xF418)).1.st ≠ 0 ∧
      (transact Config.canonical .decrementTimers (State.reset.setDt 1)).1.dt ≠ 1 ∧
      (transact Config.canonical .decrementTimers (State.reset.setSt 1)).1.st ≠ 1 := by decide

theorem witness_FramebufferChangesOnlyByClearAndDraw :
    let tr := transact Config.canonical .emulateCycle
    (tr ((lit 63 31 State.reset).withFetchWord 16 0x00E0)).1.pixel 63 31 ≠ true ∧
      (tr ((State.reset.writeByte 0 0x80).withFetchWord 16 0xD011)).1.pixel 0 0 ≠ false := by decide

theorem witness_MemoryChangesOnlyByItsWriters :
    let tr := transact Config.canonical .emulateCycle
    (tr (((State.reset.setReg 1 255).setI 0xFFF).withFetchWord 16 0xF133)).1.readByte 0xFFF ≠ 0 ∧
      (tr (((State.reset.setReg 0 9).setI 0xFFF).withFetchWord 16 0xF055)).1.readByte 0xFFF ≠ 0 ∧
      (transact Config.canonical (.load [7] (.integer 4095)) State.reset).1.readByte 0xFFF ≠ 0 := by decide

theorem witness_StackAndKeysChangeOnlyByTheirWriters :
    let tr := transact Config.canonical .emulateCycle
    (tr (State.reset.withFetchWord 16 0x2300)).1.stack ≠ [] ∧
      (tr ((State.reset.push 0x300).withFetchWord 16 0x00EE)).1.stack ≠ [0x300] ∧
      (transact Config.canonical (.setKeyPressed 15) State.reset).1.keys ≠ 0 ∧
      (transact Config.canonical (.setKeyReleased 0) (State.reset.setKeys 1)).1.keys ≠ 1 := by decide

theorem witness_CallPushesAndReturnPops :
    ((State.reset.push 0x202).push 0x400).stack = [0x202] ++ [0x400] ∧ State.reset.stack = [] := by decide

theorem witness_CallThenReturnRestores :
    ∃ t u, exec (.call 0x300) (pcAt 0x202) = .next t ∧ exec (.ret 0x0E) (t.setPc 0x302) = .next u :=
  ⟨_, _, rfl, rfl⟩

/-- The highest program counter at which a taken skip stays in memory, with the condition of each compare met and not
met. -/
theorem witness_CompareSkipsSkipOnTheirCondition :
    (skipper 1 7).CanAdvance ∧ (skipper 1 7).reg 1 = 7 ∧ (skipper 1 7).reg 1 ≠ 8 ∧
      (skipper 1 7).reg 1 = (skipper 1 7).reg 1 ∧ (skipper 1 7).reg 1 ≠ (skipper 1 7).reg 2 :=
  ⟨by show _ < _; decide, by decide, by decide, rfl, by decide⟩

/-- Key 15, the last one, pressed and not pressed; and 16, which is no key. -/
theorem witness_KeySkipsTestTheKeypad :
    ((skipper 1 15).setKeys 0x8000).CanAdvance ∧ ((skipper 1 15).setKeys 0x8000).pressed 15 = true ∧
      (skipper 1 15).pressed 15 = false ∧ ((skipper 1 16).setKeys 0xFFFF).pressed 16 = false :=
  ⟨by show _ < _; decide, by decide, by decide, by decide⟩

theorem witness_UntakenSkipsChangeNothing :
    (skipper 1 7).reg 1 ≠ 8 ∧ (skipper 1 7).reg 1 = 7 ∧ (skipper 1 7).reg 1 ≠ (skipper 1 7).reg 2 ∧
      (skipper 1 7).reg 1 = (skipper 1 7).reg 1 ∧ (skipper 1 0).pressed ((skipper 1 0).reg 1) = false ∧
      ((skipper 1 0).setKeys 1).pressed (((skipper 1 0).setKeys 1).reg 1) = true := by decide

/-- Each of the six skips taken, with the program counter advanced to 0xFFE. -/
theorem witness_TakenSkipPastMemoryFaults :
    let s := ((pcAt 0xFFE).setReg 1 0).setKeys 1
    let u := (pcAt 0xFFE).setReg 1 1
    ¬ s.CanAdvance ∧ ¬ u.CanAdvance ∧ s.reg 1 = 0 ∧ s.reg 1 ≠ 1 ∧ s.reg 1 = s.reg 2 ∧ u.reg 1 ≠ u.reg 2 ∧
      s.pressed (s.reg 1) = true ∧ u.pressed (u.reg 1) = false :=
  ⟨by show ¬ _ < _; decide, by show ¬ _ < _; decide, by decide, by decide, by decide, by decide, by decide, by decide⟩

/-- A destination that is not VF, for the clauses that need one; and one that is. -/
theorem witness_AddWithCarry :
    (14#4 ≠ vf ∧ nextHas (exec (.addReg 14 2) ((State.reset.setReg 14 0xFF).setReg 2 1)) (fun t => t.reg vf == 1) = true) ∧
      nextHas (exec (.addReg vf 2) (State.reset.setReg vf 0xFF)) (fun t => t.reg vf == 0) = true := by decide

theorem witness_SubtractWithBorrow :
    14#4 ≠ vf ∧ nextHas (exec (.sub 14 2) ((State.reset.setReg 14 5).setReg 2 5)) (fun t => t.reg vf == 1) = true ∧
      nextHas (exec (.subn 14 2) ((State.reset.setReg 14 6).setReg 2 5)) (fun t => t.reg vf == 0) = true := by decide

theorem witness_ShiftsOfVxOnly :
    14#4 ≠ vf ∧ nextHas (exec (.shr 14 2) (State.reset.setReg 14 1)) (fun t => t.reg vf == 1) = true ∧
      nextHas (exec (.shl 14 2) (State.reset.setReg 14 0x80)) (fun t => t.reg vf == 1) = true := by decide

theorem witness_RandomByteIsMasked : (0x0F#8).getLsbD 4 = false ∧ (0x0F#8).getLsbD 7 = false := by decide

/-- The clauses at their boundaries: all three digits fit at 0xFFD, two at 0xFFE, one at 0xFFF. -/
theorem witness_DecimalDigitsAreStored :
    (State.reset.setI 0xFFD).mem.wf = true ∧ (State.reset.setI 0xFFD).effAddr 2 < Config.memSize ∧
      (State.reset.setI 0xFFE).effAddr 1 < Config.memSize ∧ ¬ (State.reset.setI 0xFFE).effAddr 2 < Config.memSize ∧
      ¬ (State.reset.setI 0xFFF).effAddr 1 < Config.memSize := by decide

theorem witness_DumpStoresTheRegisters :
    (State.reset.setI 0xFF0).mem.wf = true ∧ (15#4).toNat ≤ (15#4).toNat ∧
      (State.reset.setI 0xFF0).effAddr (15#4).toNat < Config.memSize ∧
      ¬ (State.reset.setI 0xFF1).effAddr (15#4).toNat < Config.memSize := by decide

theorem witness_LoadReadsTheRegisters :
    (0#4).toNat ≤ (0#4).toNat ∧ (State.reset.setI 0xFFF).effAddr (0#4).toNat < Config.memSize ∧
      (15#4).toNat ≤ (15#4).toNat ∧ (State.reset.setI 0xFF0).effAddr (15#4).toNat < Config.memSize := by decide

theorem witness_ByteWritesAreReadBack :
    Memory.wf [(0, 1), (4095, 2)] = true ∧ 4095 < 4096 ∧ 4095 ≠ 4096 ∧ 4096 ≤ 4096 := by decide

theorem witness_CanonicalMemoriesThatReadAlikeAreEqual :
    let m := Memory.insert [(0, 1)] 4095 2
    let m' := Memory.insert [(4095, 2)] 0 1
    m.wf = true ∧ m'.wf = true ∧ ∀ a, a < 4096 → m.read a = m'.read a :=
  ⟨by decide, by decide, fun _ _ => rfl⟩

/-- A pixel that goes from on to off, and a drawing in which none does. -/
theorem witness_DrawFlagsACollision :
    (let s := lit 63 31 (((State.reset.setReg 0 63).setReg 1 31).writeByte 0 0x80)
     s.pixel 63 31 = true ∧ nextHas (exec (.drw 0 1 1) s) (fun t => !t.pixel 63 31 && t.reg vf == 1) = true) ∧
    nextHas (exec (.drw 0 1 1) (lit 5 5 State.reset)) (fun t => t.pixel 5 5 && pixelsOn t == 1 && t.reg vf == 0) = true := by
  decide

theorem witness_DrawingTwiceRestoresThePixels :
    let s := State.reset.writeByte 0 0xFF
    ∃ t u, exec (.drw 0 1 1) s = .next t ∧ t.reg 0 = s.reg 0 ∧ t.reg 1 = s.reg 1 ∧ exec (.drw 0 1 1) t = .next u :=
  ⟨_, _, rfl, by decide, by decide, rfl⟩

theorem witness_WaitForKeyTakesTheLowest :
    (∀ k, k < 16 → State.reset.keys.getLsbD k = false) ∧
      (∃ k, k < 16 ∧ (State.reset.setKeys 0x8000).keys.getLsbD k = true) ∧
      ∃ k, k < 16 ∧ (State.reset.setKeys 0x0001).keys.getLsbD k = true :=
  ⟨by decide, ⟨15, by decide⟩, ⟨0, by decide⟩⟩

theorem witness_LoadCopiesTheBytesThatFit :
    State.reset.mem.wf = true ∧ (∀ b ∈ ([0, 255] : List Int), 0 ≤ b ∧ b < 256) ∧
      0 < ([0, 255] : List Int).length ∧ 4095 + 0 < 4096 ∧ ¬ 4095 + 1 < 4096 := by decide

/-- A byte just outside each end of the range, with any offset; good bytes with the offset just below 0. -/
theorem witness_LoadRejectsBadArguments :
    (∃ b ∈ ([256] : List Int), b < 0 ∨ 255 < b) ∧ (∃ b ∈ ([-1] : List Int), b < 0 ∨ 255 < b) ∧
      ((-1 : Int) < 0 ∧ ∀ b ∈ ([0, 255] : List Int), 0 ≤ b ∧ b ≤ 255) := by decide

theorem witness_KeyTransactionsSetOneKey :
    ((0 : Int) ≤ 0 ∧ (0 : Int) ≤ 15) ∧ ((0 : Int) ≤ 15 ∧ (15 : Int) ≤ 15) ∧ ((-1 : Int) < 0 ∨ 15 < (-1 : Int)) ∧
      ((16 : Int) < 0 ∨ 15 < (16 : Int)) := by decide

/-- A tone requested, and none. -/
theorem witness_CycleReportsItsToneRequest :
    (let s := (State.reset.setReg 4 1).withFetchWord 16 0xF418
     (transact Config.canonical .emulateCycle s).2 = .cycleOk [1] ∧ decode s.fetchWord = .ok (.ldStVx 4)) ∧
    (transact Config.canonical .emulateCycle (State.reset.withFetchWord 16 0xF418)).2 = .cycleOk [] := by decide

theorem witness_HaltedCoreStaysHalted :
    halted.fault = some ⟨.boundsFault, 0xFFE, 0x00E0⟩ ∧
      (runTransactions Config.canonical [.decrementTimers, .emulateCycle] (halted.setDt 3)).dt = 2 := by decide

end Sys2Proof.Tests
end

section
/-! Proofs of the statements about the encoding (30_encoding.md). -/

namespace Sys2Proof

/-- The low 16 bits of a number that exceeds a word by a multiple of 65536 are that word. -/
theorem ofNat_toNat_add_mul (w : Word) (k : Nat) : BitVec.ofNat 16 (w.toNat + k * 65536) = w := by
  apply BitVec.eq_of_toNat_eq
  calc (BitVec.ofNat 16 (w.toNat + k * 65536)).toNat
      = (w.toNat + k * 65536) % 65536 := BitVec.toNat_ofNat _ _
    _ = w.toNat % 65536 := Nat.add_mul_mod_self_right _ _ _
    _ = w.toNat := Nat.mod_eq_of_lt w.isLt

/-- Settles O7: the decoder sees only the low 16 bits of its input, and those are the word. -/
theorem wideInputDecodesModulo65536 : Obligations.WideInputDecodesModulo65536 := by
  intro w k
  exact congrArg decode (ofNat_toNat_add_mul w k)

end Sys2Proof
end

section
/-! Proofs of the statements about the cycle and the host interface (40_cycle_and_interface.md). -/

namespace Sys2Proof.Machine

/-! ### What a host transaction can do -/

/-- A cycle as a transaction answers the state of its next step, or leaves the state as it is (R115, R116). -/
theorem emulateCycle_state (cfg : Config) (s : State) :
    cycle cfg s = .next (emulateCycle cfg s).1 ∨ (emulateCycle cfg s).1 = s := by
  unfold emulateCycle
  split
  · rename_i hc
    split <;> exact .inl hc
  · exact .inr rfl
  · exact .inr rfl

/-- What fetch, decode, advance and the faults leave alone changes in a cycle only by the instruction executed
(R115). -/
theorem emulateCycle_change_executed {α : Type} (f : State → α) (hAdvance : ∀ s : State, f s.advance = f s)
    (hFault : ∀ (s : State) (k : FatalKind) (a w : Word), f (s.takeFault k a w) = f s)
    {cfg : Config} {s : State} (h : f (emulateCycle cfg s).1 ≠ f s) :
    ∃ i, decode s.fetchWord = .ok i ∧ exec i s.advance = .next (emulateCycle cfg s).1 := by
  rcases emulateCycle_state cfg s with hc | hs
  · obtain ⟨-, ⟨r, -, -, ht⟩ | ⟨-, ht⟩ | ⟨-, hi⟩ | ⟨-, r, -, -, ht⟩⟩ := cycle_cases hc
    · exact absurd (ht ▸ hFault _ _ _ _) h
    · exact absurd (ht ▸ hFault _ _ _ _) h
    · exact hi
    · exact absurd (ht ▸ hAdvance _) h
  · exact absurd (congrArg f hs) h

/-- `load` replaces memory and nothing else (R123). -/
theorem load_state (bytes : List Int) (offset : HostArg) (s : State) :
    ∃ m, (load bytes offset s).1 = s.setMem m := by
  unfold load
  split
  · exact ⟨s.mem, rfl⟩
  · split
    · split
      · exact ⟨s.mem, rfl⟩
      · exact ⟨_, rfl⟩
    · exact ⟨s.mem, rfl⟩

/-- `setKeyPressed` replaces the keypad state and nothing else (R124). -/
theorem setKeyPressed_state (id : Int) (s : State) : ∃ k, (setKeyPressed id s).1 = s.setKeys k := by
  unfold setKeyPressed
  split
  · exact ⟨_, rfl⟩
  · exact ⟨s.keys, rfl⟩

/-- `setKeyReleased` replaces the keypad state and nothing else (R125). -/
theorem setKeyReleased_state (id : Int) (s : State) : ∃ k, (setKeyReleased id s).1 = s.setKeys k := by
  unfold setKeyReleased
  split
  · exact ⟨_, rfl⟩
  · exact ⟨s.keys, rfl⟩

/-! ### The timers (R118) -/

/-- A conditional skip leaves both timers, whether it is taken or not (41_control_flow.md R140). -/
theorem skipIf_timers {s t : State} {c : Bool} {w : Word} (h : (.next (s.skipIf c w) : Result) = .next t) :
    t.dt = s.dt ∧ t.st = s.st := by
  cases h
  have frame := onlyWrites_skipIf s c w
  exact ⟨frame .dt (by simp [skipWrites]), frame .st (by simp [skipWrites])⟩

/-- `RET` leaves both timers, whether it pops or not (41_control_flow.md R142). -/
theorem execRet_timers {z : Byte} {s t : State} (h : execRet z s = .next t) : t.dt = s.dt ∧ t.st = s.st := by
  unfold execRet at h
  split at h <;> cases h <;> exact ⟨rfl, rfl⟩

/-- `LD Vx, K` leaves both timers, whether it waits or not (45_keypad_timer.md R263). -/
theorem execLdVxK_timers {x : RegIdx} {s t : State} (h : execLdVxK x s = .next t) :
    t.dt = s.dt ∧ t.st = s.st := by
  unfold execLdVxK at h
  split at h <;> cases h <;> exact ⟨rfl, rfl⟩

/-- `LD ST, Vx` leaves DT, whether it requests a tone or not (45_keypad_timer.md R265). -/
theorem execLdStVx_dt {x : RegIdx} {s t : State} (h : execLdStVx x s = .next t) : t.dt = s.dt := by
  unfold execLdStVx at h
  dsimp only at h
  split at h <;> cases h <;> rfl

/-- An instruction leaves DT unless it is `LD DT, Vx`, and ST unless it is `LD ST, Vx` (45_keypad_timer.md
R264, R265). -/
theorem exec_timers {i : Instr} {s t : State} (h : exec i s = .next t) :
    (t.dt = s.dt ∨ ∃ x, i = .ldDtVx x) ∧ (t.st = s.st ∨ ∃ x, i = .ldStVx x) := by
  cases i with
  | ldDtVx x =>
    cases h
    exact ⟨.inr ⟨x, rfl⟩, .inl rfl⟩
  | ldStVx x => exact ⟨.inl (execLdStVx_dt h), .inr ⟨x, rfl⟩⟩
  | seImm x nn => exact (skipIf_timers h).imp .inl .inl
  | sneImm x nn => exact (skipIf_timers h).imp .inl .inl
  | seReg x y z => exact (skipIf_timers h).imp .inl .inl
  | sneReg x y z => exact (skipIf_timers h).imp .inl .inl
  | skp x => exact (skipIf_timers h).imp .inl .inl
  | sknp x => exact (skipIf_timers h).imp .inl .inl
  | ret z => exact (execRet_timers (z := z) h).imp .inl .inl
  | ldVxK x => exact (execLdVxK_timers h).imp .inl .inl
  | _ =>
    cases h
    exact ⟨.inl rfl, .inl rfl⟩

/-- The transactions that are neither a cycle nor a tick leave both timers (R127). -/
theorem transact_timers (cfg : Config) {tr : Transaction} (s : State) (hCycle : tr ≠ .emulateCycle)
    (hTick : tr ≠ .decrementTimers) : (transact cfg tr s).1.dt = s.dt ∧ (transact cfg tr s).1.st = s.st := by
  cases tr with
  | emulateCycle => exact absurd rfl hCycle
  | decrementTimers => exact absurd rfl hTick
  | load bytes offset =>
    obtain ⟨m, hm⟩ := load_state bytes offset s
    simp [transact, hm]
  | setKeyPressed id =>
    obtain ⟨k, hk⟩ := setKeyPressed_state id s
    simp [transact, hk]
  | setKeyReleased id =>
    obtain ⟨k, hk⟩ := setKeyReleased_state id s
    simp [transact, hk]
  | readFramebuffer => exact ⟨rfl, rfl⟩

/-- Settles O21: a transaction that is no tick and changes a timer is a cycle (`transact_timers`), a cycle changes a
timer only by the instruction it executes, and that one is the timer's writer (`exec_timers`). -/
theorem timersChangeOnlyByTheirWriters : Obligations.TimersChangeOnlyByTheirWriters := by
  intro cfg tr s
  by_cases hTick : tr = .decrementTimers
  · exact ⟨fun _ => .inl hTick, fun _ => .inl hTick⟩
  by_cases hCycle : tr = .emulateCycle
  · subst hCycle
    constructor <;> intro h <;> refine .inr ⟨rfl, ?_⟩
    · obtain ⟨i, hd, hx⟩ := emulateCycle_change_executed State.dt (fun _ => rfl) (fun _ _ _ _ => rfl) h
      obtain ⟨x, rfl⟩ := (exec_timers hx).1.resolve_left h
      exact ⟨x, hd⟩
    · obtain ⟨i, hd, hx⟩ := emulateCycle_change_executed State.st (fun _ => rfl) (fun _ _ _ _ => rfl) h
      obtain ⟨x, rfl⟩ := (exec_timers hx).2.resolve_left h
      exact ⟨x, hd⟩
  · obtain ⟨hdt, hst⟩ := transact_timers cfg s hCycle hTick
    exact ⟨(absurd hdt ·), (absurd hst ·)⟩

end Sys2Proof.Machine
end

section
/-! Proofs of the statements about control flow (41_control_flow.md). -/

namespace Sys2Proof.Machine

/-! ### The call stack (R142, R144) -/

/-- A jump after a stack operation writes the stack and the program counter only. -/
theorem OnlyWrites.then_setPc {s t : State} (h : OnlyWrites s t (fun p => p = .stack)) (a : Word) :
    OnlyWrites s (t.setPc a) (fun p => p = .pc ∨ p = .stack) :=
  (h.mono fun _ => .inr).trans ((onlyWrites_setPc t a).mono fun _ => .inl)

/-- `RET` with an address on the stack drops it and jumps there (R142). -/
theorem exec_ret_of_top {s : State} {r : Word} (z : Byte) (h : s.top = some r) :
    exec (.ret z) s = .next (s.dropTop.setPc r) := by
  show execRet z s = _
  rw [execRet, h]

/-- `RET` on an empty stack is no operation (R142). -/
theorem exec_ret_of_empty {s : State} (z : Byte) (h : s.stack = []) : exec (.ret z) s = .next s := by
  have hTop : s.top = none := by rw [State.top, h, List.getLast?_nil]
  show execRet z s = _
  rw [execRet, hTop]

/-- Settles O26: `CALL` is a push and a jump; the last entry of the stack is its top, so `RET` drops it and jumps
there. -/
theorem callPushesAndReturnPops : Obligations.CallPushesAndReturnPops := by
  refine ⟨fun nnn s => ?_, fun z s rest r hs => ?_, fun z s => exec_ret_of_empty z⟩
  · exact ⟨_, rfl, rfl, target_toNat nnn, (onlyWrites_push s s.pc).then_setPc _⟩
  · have hTop : s.top = some r := by rw [State.top, hs, List.getLast?_concat]
    have hRest : s.stack.dropLast = rest := by rw [hs, List.dropLast_concat]
    exact ⟨_, exec_ret_of_top z hTop, hRest, rfl, (onlyWrites_dropTop s).then_setPc r⟩

/-! ### Jumps (R143, R150) -/

/-- Settles O25: both jumps only set the program counter, to a target whose number `target_toNat` and
`offsetTarget_toNat` give. -/
theorem jumpTargets : Obligations.JumpTargets := by
  intro nnn s
  exact ⟨⟨_, rfl, target_toNat nnn, onlyWrites_setPc s _⟩,
    _, rfl, offsetTarget_toNat (s.reg v0) nnn, onlyWrites_setPc s _⟩

end Sys2Proof.Machine
end

section
/-! Proofs of the statements about register arithmetic and logic (42_arithmetic_logic.md). -/

namespace Sys2Proof.Machine

/-- The register just written reads back what was written (10_state.md R20). -/
theorem State.reg_setReg_self (s : State) (x : RegIdx) (b : Byte) : (s.setReg x b).reg x = b := by
  rw [State.setReg_reg, if_pos rfl]

/-- Settles O32: all three instructions are a `setReg` of VX, and the byte addition is addition modulo 256. -/
theorem loadsAndImmediateAdd : Obligations.LoadsAndImmediateAdd := by
  intro x y nn s
  refine ⟨⟨_, rfl, s.reg_setReg_self x nn, onlyWrites_setReg s x _⟩, ⟨_, rfl, ?_, onlyWrites_setReg s x _⟩,
    ⟨_, rfl, s.reg_setReg_self x (s.reg y), onlyWrites_setReg s x _⟩⟩
  rw [State.reg_setReg_self, BitVec.toNat_add]

/-- Settles O33: all three instructions are a `setReg` of VX, and each bit of the byte written is the operation on the
operands' bits. -/
theorem bitwiseResults : Obligations.BitwiseResults := by
  intro x y s
  refine ⟨⟨_, rfl, fun k => ?_, onlyWrites_setReg s x _⟩, ⟨_, rfl, fun k => ?_, onlyWrites_setReg s x _⟩,
    ⟨_, rfl, fun k => ?_, onlyWrites_setReg s x _⟩⟩
  · rw [State.reg_setReg_self, BitVec.getLsbD_or]
  · rw [State.reg_setReg_self, BitVec.getLsbD_and]
  · rw [State.reg_setReg_self, BitVec.getLsbD_xor]

end Sys2Proof.Machine
end

section
/-! Proofs of the statements about the address register and memory (43_address_memory.md). -/

namespace Sys2Proof.Machine

/-- Settles O38: both instructions are a `setI`, whose frame `onlyWrites_setI` gives, and `sumAddr_toNat` gives the sum's
number. -/
theorem addressRegisterWrites : Obligations.AddressRegisterWrites := by
  intro nnn x s
  exact ⟨⟨_, rfl, s.setI_i nnn, onlyWrites_setI s nnn⟩,
    _, rfl, sumAddr_toNat s.i (s.reg x), onlyWrites_setI s _⟩

end Sys2Proof.Machine
end

section
/-! Proofs of the statements about the display (44_display.md). -/

namespace Sys2Proof.Machine

/-! ### Clearing (R240) -/

/-- Settles O45: `CLS` only puts the cleared framebuffer in, whose pixels are off, and a new framebuffer writes
nothing but pixels. -/
theorem clearTurnsEveryPixelOff : Obligations.ClearTurnsEveryPixelOff := by
  intro z s
  exact ⟨_, rfl, Framebuffer.allOff_pixel, onlyWrites_setFb s _ _ fun x y hp => absurd ⟨x, y, rfl⟩ hp⟩

/-! ### The writers of the framebuffer (R244) -/

/-- Everything `RET` may write, whether it pops or not (41_control_flow.md R142). -/
theorem onlyWrites_execRet {z : Byte} {s t : State} (h : execRet z s = .next t) :
    OnlyWrites s t (fun p => p = .pc ∨ p = .stack) := by
  unfold execRet at h
  split at h <;> cases h
  · exact (onlyWrites_dropTop s).then_setPc _
  · exact OnlyWrites.refl _ _

/-- Everything `LD Vx, K` may write, whether it waits or not (45_keypad_timer.md R263). -/
theorem onlyWrites_execLdVxK {x : RegIdx} {s t : State} (h : execLdVxK x s = .next t) :
    OnlyWrites s t (fun p => p = .reg x ∨ p = .pc) := by
  unfold execLdVxK at h
  split at h <;> cases h
  · exact (onlyWrites_setReg s x _).mono fun _ => .inl
  · exact (onlyWrites_setPc s _).mono fun _ => .inr

/-- Everything `LD ST, Vx` may write, whether it requests a tone or not (45_keypad_timer.md R265). -/
theorem onlyWrites_execLdStVx {x : RegIdx} {s t : State} (h : execLdStVx x s = .next t) :
    OnlyWrites s t (fun p => p = .st ∨ p = .tones) := by
  have hSt : OnlyWrites s (s.setSt (s.reg x)) (fun p => p = .st ∨ p = .tones) :=
    (onlyWrites_setSt s _).mono fun _ => .inl
  unfold execLdStVx at h
  dsimp only at h
  split at h <;> cases h
  · exact hSt.trans ((onlyWrites_emitTone _ _).mono fun _ => .inr)
  · exact hSt

/-- An instruction leaves every pixel unless it is `CLS` or `DRW` (R244). -/
theorem exec_pixel {i : Instr} {s t : State} (h : exec i s = .next t) (x : Fin 64) (y : Fin 32) :
    t.pixel x y = s.pixel x y ∨ (∃ z, i = .cls z) ∨ ∃ vx vy n, i = .drw vx vy n := by
  cases i with
  | cls z => exact .inr (.inl ⟨z, rfl⟩)
  | drw vx vy n => exact .inr (.inr ⟨vx, vy, n, rfl⟩)
  | ret z => exact .inl (onlyWrites_execRet (z := z) h (.pixel x y) (by simp))
  | ldVxK vx => exact .inl (onlyWrites_execLdVxK h (.pixel x y) (by simp))
  | ldStVx vx => exact .inl (onlyWrites_execLdStVx h (.pixel x y) (by simp))
  | seImm | sneImm | seReg | sneReg | skp | sknp =>
    cases h
    exact .inl (onlyWrites_skipIf s _ _ (.pixel x y) (by simp [skipWrites]))
  | _ =>
    cases h
    exact .inl rfl

/-- The transactions that are no cycle leave the framebuffer (R244, 40_cycle_and_interface.md R127). -/
theorem transact_fb (cfg : Config) {tr : Transaction} (s : State) (hCycle : tr ≠ .emulateCycle) :
    (transact cfg tr s).1.fb = s.fb := by
  cases tr with
  | emulateCycle => exact absurd rfl hCycle
  | decrementTimers => rfl
  | load bytes offset =>
    obtain ⟨m, hm⟩ := load_state bytes offset s
    simp [transact, hm]
  | setKeyPressed id =>
    obtain ⟨k, hk⟩ := setKeyPressed_state id s
    simp [transact, hk]
  | setKeyReleased id =>
    obtain ⟨k, hk⟩ := setKeyReleased_state id s
    simp [transact, hk]
  | readFramebuffer => rfl

/-- Settles O22: a transaction that changes a pixel is a cycle (`transact_fb`), a cycle changes a pixel only by the
instruction it executes, and that one is `CLS` or `DRW` (`exec_pixel`). -/
theorem framebufferChangesOnlyByClearAndDraw : Obligations.FramebufferChangesOnlyByClearAndDraw := by
  intro cfg tr s x y h
  by_cases hCycle : tr = .emulateCycle
  · subst hCycle
    obtain ⟨i, hd, hx⟩ := emulateCycle_change_executed (·.pixel x y) (fun _ => rfl) (fun _ _ _ _ => rfl) h
    refine ⟨rfl, ?_⟩
    obtain ⟨z, rfl⟩ | ⟨vx, vy, n, rfl⟩ := (exec_pixel hx x y).resolve_left h
    · exact .inl ⟨z, hd⟩
    · exact .inr ⟨vx, vy, n, hd⟩
  · exact absurd (congrArg (·.pixel x y) (transact_fb cfg s hCycle)) h

end Sys2Proof.Machine
end

section
/-! Proofs of the statements about the keypad and the timers (45_keypad_timer.md). -/

namespace Sys2Proof.Machine

/-! ### The wait for a key (R263) -/

/-- `LD Vx, K` with no key pressed goes back to its own instruction (R263). -/
theorem exec_ldVxK_of_none {s : State} (x : RegIdx) (h : s.lowestKey = none) :
    exec (.ldVxK x) s = .next (s.setPc (s.pc - 2#16)) := by
  show execLdVxK x s = _
  rw [execLdVxK, h]

/-- `LD Vx, K` with a key pressed stores the lowest one (R263). -/
theorem exec_ldVxK_of_some {s : State} {b : Byte} (x : RegIdx) (h : s.lowestKey = some b) :
    exec (.ldVxK x) s = .next (s.setReg x b) := by
  show execLdVxK x s = _
  rw [execLdVxK, h]

/-- A pressed key makes the search for the lowest one succeed. -/
theorem exists_lowestKey_of_pressed {s : State} (h : ∃ k, k < 16 ∧ s.keys.getLsbD k = true) :
    ∃ b, s.lowestKey = some b := by
  obtain ⟨k, hk, hPressed⟩ := h
  refine Option.ne_none_iff_exists'.mp fun hNone => ?_
  have hReleased := (lowestKey_eq_none_iff s).mp hNone k hk
  exact Bool.false_ne_true (hReleased.symm.trans hPressed)

/-- Settles O49: with no key pressed the search finds none and the instruction only sets pc back; with one pressed it
finds a key, which `lowestKey_eq_some` says is the lowest, and the instruction only writes VX. -/
theorem waitForKeyTakesTheLowest : Obligations.WaitForKeyTakesTheLowest := by
  refine fun x s => ⟨fun hReleased => ?_, fun hPressed => ?_⟩
  · have hNone := (lowestKey_eq_none_iff s).mpr hReleased
    exact ⟨_, exec_ldVxK_of_none x hNone, s.setPc_pc _, onlyWrites_setPc s _⟩
  · obtain ⟨b, hb⟩ := exists_lowestKey_of_pressed hPressed
    obtain ⟨hLt, hKey, hLowest⟩ := lowestKey_eq_some hb
    refine ⟨_, exec_ldVxK_of_some x hb, ?_⟩
    rw [State.reg_setReg_self]
    exact ⟨hLt, hKey, hLowest, onlyWrites_setReg s x b⟩

/-! ### The delay timer (R262, R264) -/

/-- Settles O50: the read is a `setReg` of VX and the write a `setDt`, each of which writes that one part. -/
theorem delayTimerIsReadAndWritten : Obligations.DelayTimerIsReadAndWritten := by
  intro x s
  exact ⟨⟨_, rfl, s.reg_setReg_self x s.dt, onlyWrites_setReg s x _⟩,
    _, rfl, s.setDt_dt (s.reg x), onlyWrites_setDt s _⟩

end Sys2Proof.Machine
end

section
/-! Proofs of the statements about the decoder and the encoder (30_encoding.md). -/

namespace Sys2Proof

/-! ### Decoding the word of an instruction (R82, R83, R93) -/

/-- Settles O1, format by format: the fields of an encoded word are the operands, its family and its secondary key are
those the decoder dispatches on. -/
theorem decodeEncodeRoundTrip : Obligations.DecodeEncodeRoundTrip := by
  intro i
  cases i with
  | jp | call | ldI | jpV0 => simp [encode, decode, fieldF_A, fieldNNN_A]
  | seImm | sneImm | ldImm | addImm | rnd => simp [encode, decode, fieldF_XK, fieldX_XK, fieldNN_XK]
  | seReg | sneReg | drw => simp [encode, decode, fieldF_XY, fieldX_XY, fieldY_XY, fieldN_XY]
  | cls | ret => simp [encode, decode, decodeFamily0, fieldF_O, fieldN_O, ignored0_O]
  | ldReg | orReg | andReg | xorReg | addReg | sub | shr | subn | shl =>
    simp [encode, decode, decodeFamily8, fieldF_XY, fieldX_XY, fieldY_XY, fieldN_XY]
  | skp | sknp => simp [encode, decode, decodeFamilyE, fieldF_XK, fieldX_XK, fieldNN_XK]
  | ldVxDt | ldVxK | ldDtVx | ldStVx | addI | ldF | ldB | ldMemVx | ldVxMem =>
    simp [encode, decode, decodeFamilyF, fieldF_XK, fieldX_XK, fieldNN_XK]

/-! ### A word from its family, its key and its operands (R82) -/

theorem word_A_of {w : Word} {f : Nibble} (hf : w.fieldF = f) : f ++ w.fieldNNN = w := by
  rw [← hf, word_A]

theorem word_XK_of {w : Word} {f : Nibble} (hf : w.fieldF = f) : f ++ w.fieldX ++ w.fieldNN = w := by
  rw [← hf, word_XK]

theorem word_XK_key {w : Word} {f : Nibble} {nn : Byte} (hf : w.fieldF = f) (hk : w.fieldNN = nn) :
    f ++ w.fieldX ++ nn = w := by
  rw [← hf, ← hk, word_XK]

theorem word_XY_of {w : Word} {f : Nibble} (hf : w.fieldF = f) : f ++ w.fieldX ++ w.fieldY ++ w.fieldN = w := by
  rw [← hf, word_XY]

theorem word_XY_key {w : Word} {f n : Nibble} (hf : w.fieldF = f) (hk : w.fieldN = n) :
    f ++ w.fieldX ++ w.fieldY ++ n = w := by
  rw [← hf, ← hk, word_XY]

theorem word_O_key {w : Word} {f n : Nibble} (hf : w.fieldF = f) (hk : w.fieldN = n) :
    f ++ w.ignored0 ++ n = w := by
  rw [← hf, ← hk, word_O]

/-! ### Encoding a decoded word (R82, R93) -/

theorem encode_of_decodeFamily0 {w : Word} {i : Instr} (hf : w.fieldF = 0x0#4) (h : decodeFamily0 w = .ok i) :
    encode i = w := by
  unfold decodeFamily0 at h
  split at h <;> cases h <;> exact word_O_key hf ‹_›

theorem encode_of_decodeFamily8 {w : Word} {i : Instr} (hf : w.fieldF = 0x8#4) (h : decodeFamily8 w = .ok i) :
    encode i = w := by
  unfold decodeFamily8 at h
  split at h <;> cases h <;> exact word_XY_key hf ‹_›

theorem encode_of_decodeFamilyE {w : Word} {i : Instr} (hf : w.fieldF = 0xE#4) (h : decodeFamilyE w = .ok i) :
    encode i = w := by
  unfold decodeFamilyE at h
  split at h <;> cases h <;> exact word_XK_key hf ‹_›

theorem encode_of_decodeFamilyF {w : Word} {i : Instr} (hf : w.fieldF = 0xF#4) (h : decodeFamilyF w = .ok i) :
    encode i = w := by
  unfold decodeFamilyF at h
  split at h <;> cases h <;> exact word_XK_key hf ‹_›

/-- Settles O2: along the decoder's branches, the word is put together again from the family and the key of the branch
and the fields it reads. -/
theorem encodeRecoversTheWord : Obligations.EncodeRecoversTheWord := by
  intro w i h
  unfold decode at h
  split at h
  case h_1 hf => exact encode_of_decodeFamily0 hf h
  case h_9 hf => exact encode_of_decodeFamily8 hf h
  case h_15 hf => exact encode_of_decodeFamilyE hf h
  case h_16 hf => exact encode_of_decodeFamilyF hf h
  case h_17 => cases h
  case h_2 hf | h_3 hf | h_11 hf | h_12 hf => cases h; exact word_A_of hf
  case h_4 hf | h_5 hf | h_7 hf | h_8 hf | h_13 hf => cases h; exact word_XK_of hf
  case h_6 hf | h_10 hf | h_14 hf => cases h; exact word_XY_of hf

/-- A word and its instruction determine each other (O1 and O2). -/
theorem decode_eq_ok_iff {w : Word} {i : Instr} : decode w = .ok i ↔ encode i = w :=
  ⟨encodeRecoversTheWord w i, fun h => h ▸ decodeEncodeRoundTrip i⟩

/-! ### Rejected words (R85, R88, R90) -/

/-- The second level of family 0x0 rejects the words of R90's first row, and by that name. -/
theorem decodeFamily0_rejects (w : Word) :
    (decodeFamily0 w = .error .unrecognizedSecondary ↔ wellFormedFamily0 w.fieldN = false) ∧
      decodeFamily0 w ≠ .error .unknownFamily := by
  unfold decodeFamily0
  split <;> simp_all [wellFormedFamily0]

/-- The recognized low nibbles of family 0x8 are the keys of its nine rows (R86, R90). -/
theorem wellFormedFamily8_keys : ∀ n : Nibble, wellFormedFamily8 n = true →
    n ∈ ([0x0#4, 0x1#4, 0x2#4, 0x3#4, 0x4#4, 0x5#4, 0x6#4, 0x7#4, 0xE#4] : List Nibble) := by
  decide

/-- The second level of family 0x8 rejects the words of R90's second row, and by that name. -/
theorem decodeFamily8_rejects (w : Word) :
    (decodeFamily8 w = .error .unrecognizedSecondary ↔ wellFormedFamily8 w.fieldN = false) ∧
      decodeFamily8 w ≠ .error .unknownFamily := by
  have hKeys := wellFormedFamily8_keys w.fieldN
  unfold decodeFamily8
  split <;> simp_all [wellFormedFamily8]

/-- The second level of family 0xE rejects the words of R90's third row, and by that name. -/
theorem decodeFamilyE_rejects (w : Word) :
    (decodeFamilyE w = .error .unrecognizedSecondary ↔ wellFormedFamilyE w.fieldNN = false) ∧
      decodeFamilyE w ≠ .error .unknownFamily := by
  unfold decodeFamilyE
  split <;> simp_all [wellFormedFamilyE]

/-- The second level of family 0xF rejects the words of R90's fourth row, and by that name. -/
theorem decodeFamilyF_rejects (w : Word) :
    (decodeFamilyF w = .error .unrecognizedSecondary ↔ wellFormedFamilyF w.fieldNN = false) ∧
      decodeFamilyF w ≠ .error .unknownFamily := by
  unfold decodeFamilyF
  split <;> simp_all [wellFormedFamilyF]

/-- A word of family 0x0 is judged by its low nibble (R90). -/
theorem wellFormedWord_family0 {w : Word} (hf : w.fieldF = 0x0#4) : wellFormedWord w = wellFormedFamily0 w.fieldN := by
  rw [wellFormedWord, ← fieldF_toNat, ← fieldN_eq, hf]
  rfl

/-- A word of family 0x8 is judged by its low nibble (R90). -/
theorem wellFormedWord_family8 {w : Word} (hf : w.fieldF = 0x8#4) : wellFormedWord w = wellFormedFamily8 w.fieldN := by
  rw [wellFormedWord, ← fieldF_toNat, ← fieldN_eq, hf]
  rfl

/-- A word of family 0xE is judged by its low byte (R90). -/
theorem wellFormedWord_familyE {w : Word} (hf : w.fieldF = 0xE#4) : wellFormedWord w = wellFormedFamilyE w.fieldNN := by
  rw [wellFormedWord, ← fieldF_toNat, ← fieldNN_eq, hf]
  rfl

/-- A word of family 0xF is judged by its low byte (R90). -/
theorem wellFormedWord_familyF {w : Word} (hf : w.fieldF = 0xF#4) : wellFormedWord w = wellFormedFamilyF w.fieldNN := by
  rw [wellFormedWord, ← fieldF_toNat, ← fieldNN_eq, hf]
  rfl

/-- Settles O3: a family with a secondary key rejects exactly its row of the list, the other families reject nothing,
and the sixteen values of the family nibble leave no unknown family. -/
theorem rejectedWordsAreTheUnrecognizedOnes : Obligations.RejectedWordsAreTheUnrecognizedOnes := by
  intro w
  have hFamilies := nibble_cases w.fieldF
  unfold decode
  split
  case h_1 hf => rw [wellFormedWord_family0 hf]; exact decodeFamily0_rejects w
  case h_9 hf => rw [wellFormedWord_family8 hf]; exact decodeFamily8_rejects w
  case h_15 hf => rw [wellFormedWord_familyE hf]; exact decodeFamilyE_rejects w
  case h_16 hf => rw [wellFormedWord_familyF hf]; exact decodeFamilyF_rejects w
  case h_17 => simp_all
  case h_2 hf | h_3 hf | h_4 hf | h_5 hf | h_6 hf | h_7 hf | h_8 hf | h_10 hf | h_11 hf | h_12 hf | h_13 hf | h_14 hf =>
    simp [Laws.wellFormedWord_unkeyed hf rfl]

/-! ### The opcode map (R87) -/

/-- No two rows of the opcode map have the same number. -/
theorem opcodeMap_unique {n : Nat} {r r' : Word × Word} (h : (n, r) ∈ opcodeMap) (h' : (n, r') ∈ opcodeMap) :
    r = r' := by
  have hNodup : (opcodeMap.map Prod.fst).Nodup := by decide
  exact congrArg Prod.snd (List.inj_on_of_nodup_map hNodup h h' rfl)

/-! A word that passes a row's decode test is the row's family, the word's own operands and the row's key. -/

theorem word_A_of_test {w : Word} {f : Nibble} (h : w &&& 0xF000#16 = f ++ 0#12) : f ++ w.fieldNNN = w :=
  word_A_of ((mask_F000 w f).mp h)

theorem word_XK_of_test {w : Word} {f : Nibble} (h : w &&& 0xF000#16 = f ++ 0#12) :
    f ++ w.fieldX ++ w.fieldNN = w :=
  word_XK_of ((mask_F000 w f).mp h)

theorem word_XY_of_test {w : Word} {f : Nibble} (h : w &&& 0xF000#16 = f ++ 0#12) :
    f ++ w.fieldX ++ w.fieldY ++ w.fieldN = w :=
  word_XY_of ((mask_F000 w f).mp h)

theorem word_O_of_test {w : Word} {f n : Nibble} (h : w &&& 0xF00F#16 = f ++ 0#8 ++ n) : f ++ w.ignored0 ++ n = w :=
  let ⟨hf, hn⟩ := (mask_F00F w f n).mp h
  word_O_key hf hn

theorem word_XY_key_of_test {w : Word} {f n : Nibble} (h : w &&& 0xF00F#16 = f ++ 0#8 ++ n) :
    f ++ w.fieldX ++ w.fieldY ++ n = w :=
  let ⟨hf, hn⟩ := (mask_F00F w f n).mp h
  word_XY_key hf hn

theorem word_XK_key_of_test {w : Word} {f : Nibble} {nn : Byte} (h : w &&& 0xF0FF#16 = f ++ 0#4 ++ nn) :
    f ++ w.fieldX ++ nn = w :=
  let ⟨hf, hnn⟩ := (mask_F0FF w f nn).mp h
  word_XK_key hf hnn

/-- A word that passes a test of families 0x0 to 0x7 is the word of an instruction of that row. -/
theorem exists_encode_of_test_low (w : Word) :
    ∀ r ∈ opcodeRowsLow, w &&& r.2.1 = r.2.2 → ∃ i, encode i = w ∧ i.row = r.1 := by
  simp only [opcodeRowsLow, List.forall_mem_cons]
  exact ⟨fun h => ⟨.cls w.ignored0, word_O_of_test h, rfl⟩,
    fun h => ⟨.ret w.ignored0, word_O_of_test h, rfl⟩,
    fun h => ⟨.jp w.fieldNNN, word_A_of_test h, rfl⟩,
    fun h => ⟨.call w.fieldNNN, word_A_of_test h, rfl⟩,
    fun h => ⟨.seImm w.fieldX w.fieldNN, word_XK_of_test h, rfl⟩,
    fun h => ⟨.sneImm w.fieldX w.fieldNN, word_XK_of_test h, rfl⟩,
    fun h => ⟨.seReg w.fieldX w.fieldY w.fieldN, word_XY_of_test h, rfl⟩,
    fun h => ⟨.ldImm w.fieldX w.fieldNN, word_XK_of_test h, rfl⟩,
    fun h => ⟨.addImm w.fieldX w.fieldNN, word_XK_of_test h, rfl⟩,
    List.forall_mem_nil _⟩

/-- A word that passes a test of families 0x8 to 0xD is the word of an instruction of that row. -/
theorem exists_encode_of_test_mid (w : Word) :
    ∀ r ∈ opcodeRowsMid, w &&& r.2.1 = r.2.2 → ∃ i, encode i = w ∧ i.row = r.1 := by
  simp only [opcodeRowsMid, List.forall_mem_cons]
  exact ⟨fun h => ⟨.ldReg w.fieldX w.fieldY, word_XY_key_of_test h, rfl⟩,
    fun h => ⟨.orReg w.fieldX w.fieldY, word_XY_key_of_test h, rfl⟩,
    fun h => ⟨.andReg w.fieldX w.fieldY, word_XY_key_of_test h, rfl⟩,
    fun h => ⟨.xorReg w.fieldX w.fieldY, word_XY_key_of_test h, rfl⟩,
    fun h => ⟨.addReg w.fieldX w.fieldY, word_XY_key_of_test h, rfl⟩,
    fun h => ⟨.sub w.fieldX w.fieldY, word_XY_key_of_test h, rfl⟩,
    fun h => ⟨.shr w.fieldX w.fieldY, word_XY_key_of_test h, rfl⟩,
    fun h => ⟨.subn w.fieldX w.fieldY, word_XY_key_of_test h, rfl⟩,
    fun h => ⟨.shl w.fieldX w.fieldY, word_XY_key_of_test h, rfl⟩,
    fun h => ⟨.sneReg w.fieldX w.fieldY w.fieldN, word_XY_of_test h, rfl⟩,
    fun h => ⟨.ldI w.fieldNNN, word_A_of_test h, rfl⟩,
    fun h => ⟨.jpV0 w.fieldNNN, word_A_of_test h, rfl⟩,
    fun h => ⟨.rnd w.fieldX w.fieldNN, word_XK_of_test h, rfl⟩,
    fun h => ⟨.drw w.fieldX w.fieldY w.fieldN, word_XY_of_test h, rfl⟩,
    List.forall_mem_nil _⟩

/-- A word that passes a test of families 0xE and 0xF is the word of an instruction of that row. -/
theorem exists_encode_of_test_high (w : Word) :
    ∀ r ∈ opcodeRowsHigh, w &&& r.2.1 = r.2.2 → ∃ i, encode i = w ∧ i.row = r.1 := by
  simp only [opcodeRowsHigh, List.forall_mem_cons]
  exact ⟨fun h => ⟨.skp w.fieldX, word_XK_key_of_test h, rfl⟩,
    fun h => ⟨.sknp w.fieldX, word_XK_key_of_test h, rfl⟩,
    fun h => ⟨.ldVxDt w.fieldX, word_XK_key_of_test h, rfl⟩,
    fun h => ⟨.ldVxK w.fieldX, word_XK_key_of_test h, rfl⟩,
    fun h => ⟨.ldDtVx w.fieldX, word_XK_key_of_test h, rfl⟩,
    fun h => ⟨.ldStVx w.fieldX, word_XK_key_of_test h, rfl⟩,
    fun h => ⟨.addI w.fieldX, word_XK_key_of_test h, rfl⟩,
    fun h => ⟨.ldF w.fieldX, word_XK_key_of_test h, rfl⟩,
    fun h => ⟨.ldB w.fieldX, word_XK_key_of_test h, rfl⟩,
    fun h => ⟨.ldMemVx w.fieldX, word_XK_key_of_test h, rfl⟩,
    fun h => ⟨.ldVxMem w.fieldX, word_XK_key_of_test h, rfl⟩,
    List.forall_mem_nil _⟩

/-- The word of an instruction passes the decode test of the instruction's row. -/
theorem encode_passes_its_row (i : Instr) :
    ∃ mask code, encode i &&& mask = code ∧ (i.row, mask, code) ∈ opcodeMap := by
  cases i with
  | jp | call | ldI | jpV0 => exact ⟨_, _, (mask_F000 _ _).mpr (fieldF_A _ _), of_decide_eq_true rfl⟩
  | seImm | sneImm | ldImm | addImm | rnd =>
    exact ⟨_, _, (mask_F000 _ _).mpr (fieldF_XK _ _ _), of_decide_eq_true rfl⟩
  | seReg | sneReg | drw => exact ⟨_, _, (mask_F000 _ _).mpr (fieldF_XY _ _ _ _), of_decide_eq_true rfl⟩
  | cls | ret =>
    exact ⟨_, _, (mask_F00F _ _ _).mpr ⟨fieldF_O _ _ _, fieldN_O _ _ _⟩, of_decide_eq_true rfl⟩
  | ldReg | orReg | andReg | xorReg | addReg | sub | shr | subn | shl =>
    exact ⟨_, _, (mask_F00F _ _ _).mpr ⟨fieldF_XY _ _ _ _, fieldN_XY _ _ _ _⟩, of_decide_eq_true rfl⟩
  | skp | sknp | ldVxDt | ldVxK | ldDtVx | ldStVx | addI | ldF | ldB | ldMemVx | ldVxMem =>
    exact ⟨_, _, (mask_F0FF _ _ _).mpr ⟨fieldF_XK _ _ _, fieldNN_XK _ _ _⟩, of_decide_eq_true rfl⟩

/-- Settles O4: a word that passes the test is put together again as an instruction of that row; and the word of an
instruction passes the test of its row, the only row of that number. -/
theorem decodeAgreesWithTheOpcodeMap : Obligations.DecodeAgreesWithTheOpcodeMap := by
  intro w n mask code hRow
  simp only [decode_eq_ok_iff]
  constructor
  · intro hTest
    obtain (hLow | hMid) | hHigh := (List.mem_append.trans (or_congr_left List.mem_append)).mp hRow
    · exact exists_encode_of_test_low w _ hLow hTest
    · exact exists_encode_of_test_mid w _ hMid hTest
    · exact exists_encode_of_test_high w _ hHigh hTest
  · rintro ⟨i, rfl, rfl⟩
    obtain ⟨mask', code', hTest, hRow'⟩ := encode_passes_its_row i
    cases opcodeMap_unique hRow hRow'
    exact hTest

/-! ### Words and bytes (R80, 95_test_vectors.md 2.1) -/

/-- The decoder on two bytes is the decoder on their word (R80, 20_memory.md R55). -/
theorem decodeBytes_eq_ok_iff {hi lo : Byte} {rest : List Byte} {i : Instr} :
    decodeBytes (hi :: lo :: rest) = .ok (i, rest) ↔ decode (wordOfBytes hi lo) = .ok i := by
  rw [decodeBytes]
  cases decode (wordOfBytes hi lo) <;> simp

/-- Settles O6: the two bytes of a word make that word again, which decodes to its instruction. -/
theorem bytesDecodeToTheirInstruction : Obligations.BytesDecodeToTheirInstruction := by
  refine ⟨fun i rest => ?_, rfl, fun b => rfl⟩
  refine decodeBytes_eq_ok_iff.mpr ?_
  rw [wordOfBytes_hi_lo]
  exact decodeEncodeRoundTrip i

/-- Settles O5: nine fixed words, each of which the decoder evaluates. -/
theorem vectorWordsDecode : Obligations.VectorWordsDecode := by
  unfold Obligations.VectorWordsDecode
  decide

end Sys2Proof
end

section
/-! Proofs of the statements about returns and skips (41_control_flow.md, 45_keypad_timer.md section 1). -/

namespace Sys2Proof.Machine

/-- Settles O27: what the call pushed is on top of the stack wherever the program counter is, so the return pops it. -/
theorem callThenReturnRestores : Obligations.CallThenReturnRestores := by
  intro nnn z pc s t u hCall hRet
  cases hCall
  have hTop : (((s.push s.pc).setPc (target nnn)).setPc pc).top = some s.pc := List.getLast?_concat
  rw [exec_ret_of_top z hTop] at hRet
  cases hRet
  exact ⟨rfl, List.dropLast_concat⟩

/-! ### Skips that stay in memory (R140, R145 to R148) -/

/-- A conditional skip that stays in memory sets the program counter and nothing else. -/
theorem skipIf_inside {s : State} {c : Bool} {P : Prop} [Decidable P] (w : Word) (ha : s.CanAdvance)
    (hc : c = true ↔ P) :
    (s.skipIf c w).pc = (if P then s.pc + 2#16 else s.pc) ∧ OnlyWrites s (s.skipIf c w) (fun p => p = .pc) := by
  by_cases hP : P
  · rw [hc.mpr hP, if_pos hP]
    show (s.skip w).pc = _ ∧ OnlyWrites s (s.skip w) _
    rw [skip_inside w ha]
    exact ⟨rfl, onlyWrites_setPc s _⟩
  · rw [Bool.eq_false_iff.mpr (mt hc.mp hP), if_neg hP]
    exact ⟨rfl, OnlyWrites.refl s _⟩

/-- Settles O28: each compare skip is a conditional skip on its own condition. -/
theorem compareSkipsSkipOnTheirCondition : Obligations.CompareSkipsSkipOnTheirCondition := by
  intro x y nn z s ha
  exact ⟨⟨_, rfl, skipIf_inside _ ha decide_eq_true_iff⟩, ⟨_, rfl, skipIf_inside _ ha decide_eq_true_iff⟩,
    ⟨_, rfl, skipIf_inside _ ha decide_eq_true_iff⟩, _, rfl, skipIf_inside _ ha decide_eq_true_iff⟩

/-- Settles O29: each key skip is a conditional skip on the key's bit or on its complement. -/
theorem keySkipsTestTheKeypad : Obligations.KeySkipsTestTheKeypad := by
  intro x s ha
  have hPressed := pressed_iff s (s.reg x)
  refine ⟨⟨_, rfl, skipIf_inside _ ha hPressed⟩, _, rfl, ?_⟩
  rw [← ite_not]
  exact skipIf_inside _ ha (by rw [Bool.not_eq_true', ← Bool.not_eq_true, hPressed])

/-! ### Skips not taken, and skips past the end of memory (R140) -/

/-- A skip that is not taken is no operation. -/
theorem skipIf_of_false {s : State} {c : Bool} (w : Word) (hc : c = false) : s.skipIf c w = s := by
  rw [hc]
  rfl

/-- A skip that is taken past the end of memory takes its fault. -/
theorem skipIf_outside {s : State} {c : Bool} (w : Word) (ha : ¬ s.CanAdvance) (hc : c = true) :
    s.skipIf c w = s.takeFault .boundsFault (s.pc - 2#16) w := by
  rw [hc]
  exact skip_outside w ha

/-- Settles O30: with its condition false, each of the six is a skip that is not taken. -/
theorem untakenSkipsChangeNothing : Obligations.UntakenSkipsChangeNothing := by
  intro x y nn z s
  refine ⟨fun h => ?_, fun h => ?_, fun h => ?_, fun h => ?_, fun h => ?_, fun h => ?_⟩ <;>
    refine congrArg Host.Outcome.next (skipIf_of_false _ ?_)
  · exact decide_eq_false h
  · exact decide_eq_false (not_not_intro h)
  · exact decide_eq_false h
  · exact decide_eq_false (not_not_intro h)
  · exact h
  · rw [h, Bool.not_true]

/-- An instruction whose meaning is a taken skip past the end of memory faults with its own address and word. -/
theorem exec_skip_outside {i : Instr} {s : State} {c : Bool} (hx : exec i s = .next (s.skipIf c (encode i)))
    (ha : ¬ s.CanAdvance) (hc : c = true) :
    ∃ t, exec i s = .next t ∧ t.pc = s.pc - 2#16 ∧ t.fault = some ⟨.boundsFault, s.pc - 2#16, encode i⟩ ∧
      OnlyWrites s t (fun p => p = .pc ∨ p = .fault) := by
  rw [skipIf_outside _ ha hc] at hx
  exact ⟨_, hx, rfl, rfl, onlyWrites_takeFault s _ _ _⟩

/-- Settles O31: with its condition true, each of the six is a taken skip of its own word. -/
theorem takenSkipPastMemoryFaults : Obligations.TakenSkipPastMemoryFaults := by
  rintro i s ha (⟨x, nn, rfl, h⟩ | ⟨x, nn, rfl, h⟩ | ⟨x, y, z, rfl, h⟩ | ⟨x, y, z, rfl, h⟩ | ⟨x, rfl, h⟩ | ⟨x, rfl, h⟩)
  · exact exec_skip_outside rfl ha (decide_eq_true h)
  · exact exec_skip_outside rfl ha (decide_eq_true h)
  · exact exec_skip_outside rfl ha (decide_eq_true h)
  · exact exec_skip_outside rfl ha (decide_eq_true h)
  · exact exec_skip_outside rfl ha h
  · exact exec_skip_outside (c := !s.pressed (s.reg x)) rfl ha (by rw [h, Bool.not_false])

end Sys2Proof.Machine
end

section
/-! Proofs of the statements about the flag-setting arithmetic and the random byte (42_arithmetic_logic.md sections 4 to
6). -/

namespace Sys2Proof.Machine

/-- Two register writes write those two registers. -/
theorem onlyWrites_setReg_setReg (s : State) (x z : RegIdx) (b c : Byte) :
    OnlyWrites s ((s.setReg x b).setReg z c) (fun p => p = .reg x ∨ p = .reg z) :=
  ((onlyWrites_setReg s x b).mono fun _ => .inl).trans ((onlyWrites_setReg _ z c).mono fun _ => .inr)

/-- The first of two register writes, where the second is to another register. -/
theorem State.reg_setReg_setReg_first (s : State) {x z : RegIdx} (b c : Byte) (h : x ≠ z) :
    ((s.setReg x b).setReg z c).reg x = b := by
  rw [State.setReg_reg, if_neg h, State.reg_setReg_self]

/-- Settles O34: the result is written, then the flag, so VX holds the sum unless it is VF; the source's test of the
flag is the carry. -/
theorem addWithCarry : Obligations.AddWithCarry := by
  intro x y s
  refine ⟨_, rfl, fun hx => ?_, ?_, onlyWrites_setReg_setReg s x vf _ _⟩
  · rw [State.reg_setReg_setReg_first _ _ _ hx, BitVec.toNat_add]
  · rw [State.reg_setReg_self, carryFlag_add]

/-- A byte difference as a number (R173). -/
theorem byte_sub_toNat (a b : Byte) : (a - b).toNat = (a.toNat + 256 - b.toNat) % 256 := by
  have := b.isLt
  rw [BitVec.toNat_sub]
  omega

/-- Settles O35: the result is written, then the flag, so VX holds the difference unless it is VF; the source's test of
the flag is the borrow. -/
theorem subtractWithBorrow : Obligations.SubtractWithBorrow := by
  intro x y s
  refine ⟨⟨_, rfl, fun hx => ?_, ?_, onlyWrites_setReg_setReg s x vf _ _⟩,
    ⟨_, rfl, fun hx => ?_, ?_, onlyWrites_setReg_setReg s x vf _ _⟩⟩
  · rw [State.reg_setReg_setReg_first _ _ _ hx, byte_sub_toNat]
  · rw [State.reg_setReg_self, noBorrowFlag_sub]
  · rw [State.reg_setReg_setReg_first _ _ _ hx, byte_sub_toNat]
  · rw [State.reg_setReg_self, noBorrowFlag_sub]

/-- Settles O36: the flag is written, then the shifted value, so VF holds the flag unless it is VX. -/
theorem shiftsOfVxOnly : Obligations.ShiftsOfVxOnly := by
  intro x y s
  refine ⟨⟨_, rfl, ?_, fun hx => ?_, (onlyWrites_setReg_setReg s vf x _ _).mono fun _ => Or.symm⟩,
    ⟨_, rfl, ?_, fun hx => ?_, (onlyWrites_setReg_setReg s vf x _ _).mono fun _ => Or.symm⟩⟩
  · rw [State.reg_setReg_self, BitVec.toNat_ushiftRight, Nat.shiftRight_eq_div_pow, Nat.pow_one]
  · rw [State.reg_setReg_setReg_first _ _ _ hx.symm, lowBitFlag_toNat]
  · rw [State.reg_setReg_self, BitVec.toNat_shiftLeft, Nat.shiftLeft_eq, Nat.pow_one]
  · rw [State.reg_setReg_setReg_first _ _ _ hx.symm, highBitFlag_toNat]

/-- `RND` writes VX and the draw counter (R185, R186). -/
theorem onlyWrites_nextDraw_setReg (s : State) (x : RegIdx) (b : Byte) :
    OnlyWrites s (s.nextDraw.setReg x b) (fun p => p = .reg x ∨ p = .draws) :=
  ((onlyWrites_nextDraw s).mono fun _ => .inr).trans ((onlyWrites_setReg _ x b).mono fun _ => .inl)

/-- Settles O37: the byte of the draw counter is masked, bit by bit, and the counter moves on. -/
theorem randomByteIsMasked : Obligations.RandomByteIsMasked := by
  intro x nn s
  refine ⟨_, rfl, State.reg_setReg_self _ _ _, fun k hk => ?_, rfl, onlyWrites_nextDraw_setReg s x _⟩
  rw [State.reg_setReg_self, BitVec.getLsbD_and, hk, Bool.and_false]

end Sys2Proof.Machine
end

section
/-! Proofs of the statements about memory and the memory instructions (20_memory.md, 43_address_memory.md). -/

namespace Sys2Proof.Machine

/-! ### Single bytes (20_memory.md R53, R54) -/

/-- Settles O43: each clause is a law of `MemRead` and `MemWrite`. -/
theorem byteWritesAreReadBack : Obligations.ByteWritesAreReadBack := by
  intro m a b x hm
  exact ⟨Memory.read_write_same x hm, fun h => Memory.read_write_other m x h.symm,
    fun ha => ⟨Memory.write_outside m x ha, Memory.read_outside m ha⟩, Memory.wf_write a x hm⟩

/-! ### The canonical form is unique (10_state.md R32) -/

theorem Memory.lookup_cons_self (k : Nat) (y : Byte) (m : Memory) : Memory.lookup ((k, y) :: m) k = y := by
  simp [Memory.lookup]

theorem Memory.lookup_cons_other {k a : Nat} (y : Byte) (m : Memory) (h : a ≠ k) :
    Memory.lookup ((k, y) :: m) a = m.lookup a := by
  simp [Memory.lookup, h]

theorem Memory.wfFrom_cons {lo k : Nat} {y : Byte} {m : Memory} (h : Memory.wfFrom lo ((k, y) :: m) = true) :
    k < Config.memSize ∧ y ≠ Memory.unlisted ∧ Memory.wfFrom k ((k, y) :: m) = true ∧
      Memory.wfFrom (k + 1) m = true := by
  simp only [Memory.wfFrom, Bool.and_eq_true, decide_eq_true_eq] at h ⊢
  obtain ⟨⟨⟨-, hk⟩, hy⟩, hm⟩ := h
  exact ⟨hk, hy, ⟨⟨⟨Nat.le_refl k, hk⟩, hy⟩, hm⟩, hm⟩

/-- A canonical memory reads differently from one that lists nothing up to its first address. -/
theorem Memory.lookup_ne_of_head_below {lo lo' k : Nat} {y : Byte} {m m' : Memory}
    (hm : Memory.wfFrom lo ((k, y) :: m) = true) (hm' : Memory.wfFrom lo' m' = true) (hk : k < lo') :
    ¬ ∀ a, a < Config.memSize → Memory.lookup ((k, y) :: m) a = m'.lookup a := by
  intro h
  obtain ⟨hSize, hy, -, -⟩ := Memory.wfFrom_cons hm
  exact hy (by rw [← Memory.lookup_below hm' hk, ← h k hSize, Memory.lookup_cons_self])

/-- Canonical memories that list the same byte for every address are equal: they start with the same entry, and what
follows it lists the same bytes again. -/
theorem Memory.eq_of_lookup {lo : Nat} {m m' : Memory} (hm : Memory.wfFrom lo m = true)
    (hm' : Memory.wfFrom lo m' = true) (h : ∀ a, a < Config.memSize → m.lookup a = m'.lookup a) : m = m' := by
  induction m generalizing lo m' with
  | nil =>
    match m' with
    | [] => rfl
    | (k, y) :: m' =>
      exact absurd (fun a ha => (h a ha).symm)
        (Memory.lookup_ne_of_head_below hm' (rfl : Memory.wfFrom (k + 1) [] = true) k.lt_succ_self)
  | cons c m ih =>
    obtain ⟨k, y⟩ := c
    obtain ⟨hk, -, hFrom, hTail⟩ := Memory.wfFrom_cons hm
    match m' with
    | [] =>
      exact absurd h (Memory.lookup_ne_of_head_below hm (rfl : Memory.wfFrom (k + 1) [] = true) k.lt_succ_self)
    | (k', y') :: m' =>
      obtain ⟨-, -, hFrom', hTail'⟩ := Memory.wfFrom_cons hm'
      obtain hlt | rfl | hlt := Nat.lt_trichotomy k k'
      · exact absurd h (Memory.lookup_ne_of_head_below hm hFrom' hlt)
      · have hy : y = y' := by simpa only [Memory.lookup_cons_self] using h k hk
        have hTails : m = m' := ih hTail hTail' fun a ha => by
          by_cases hak : a < k + 1
          · rw [Memory.lookup_below hTail hak, Memory.lookup_below hTail' hak]
          · have hne : a ≠ k := by omega
            simpa only [Memory.lookup_cons_other _ _ hne] using h a ha
        rw [hy, hTails]
      · exact absurd (fun a ha => (h a ha).symm) (Memory.lookup_ne_of_head_below hm' hFrom hlt)

/-- Settles O44: inside memory a read is the lookup of the address, and the lookups determine the canonical form. -/
theorem canonicalMemoriesThatReadAlikeAreEqual : Obligations.CanonicalMemoriesThatReadAlikeAreEqual := by
  intro m m' hm hm' h
  refine Memory.eq_of_lookup hm hm' fun a ha => ?_
  simpa only [Memory.read, if_pos ha] using h a ha

/-! ### Effective addresses (43_address_memory.md R211) -/

theorem effAddr_zero_add (s : State) (k : Nat) : s.effAddr 0 + k = s.effAddr k := rfl

theorem effAddr_inj {s : State} {j k : Nat} : s.effAddr j = s.effAddr k ↔ j = k :=
  Nat.add_left_cancel_iff

/-! ### The font address (R213) -/

/-- Settles O39: the instruction is a `setI`, and `fontAddr_toNat` gives the address. -/
theorem fontAddress : Obligations.FontAddress := by
  intro x s
  exact ⟨_, rfl, fontAddr_toNat (s.reg x), onlyWrites_setI s _⟩

/-! ### The decimal digits (R214) -/

/-- A byte read after a store to another address. -/
theorem State.readByte_writeByte_other (s : State) {a c : Nat} (b : Byte) (h : c ≠ a) :
    (s.writeByte a b).readByte c = s.readByte c :=
  Memory.read_write_other s.mem b h

/-- A byte read after a store to its address. -/
theorem State.readByte_writeByte_same {s : State} {a : Nat} (b : Byte) (hm : s.mem.wf = true)
    (ha : a < Config.memSize) : (s.writeByte a b).readByte a = b :=
  Memory.read_write_same b hm ha

/-- The parts of stores to the first `count` effective addresses, those that lie in memory. -/
def storeParts (s : State) (count : Nat) (p : Part) : Prop :=
  ∃ k, k < count ∧ s.effAddr k < Config.memSize ∧ p = .byte (s.effAddr k)

/-- One store at an effective address of `s`, made in whatever state. -/
theorem onlyWrites_store (s u : State) {k count : Nat} (b : Byte) (hk : k < count) :
    OnlyWrites u (u.writeByte (s.effAddr k) b) (storeParts s count) :=
  (onlyWrites_writeByte u _ b).mono fun _ ⟨ha, hp⟩ => ⟨k, hk, ha, hp⟩

/-- `LD B, Vx` writes the three bytes at I, those that lie in memory (R214). -/
theorem onlyWrites_execLdB {x : RegIdx} {s t : State} (h : execLdB x s = .next t) :
    OnlyWrites s t (storeParts s 3) := by
  cases h
  exact ((onlyWrites_store s s _ (by decide)).trans (onlyWrites_store s _ _ (by decide))).trans
    (onlyWrites_store s _ _ (by decide))

/-- Settles O40: the three stores are to different addresses, so each digit is read back past the later stores. -/
theorem decimalDigitsAreStored : Obligations.DecimalDigitsAreStored := by
  intro x s hm
  have h01 : s.effAddr 0 ≠ s.effAddr 1 := mt effAddr_inj.mp (by decide)
  have h02 : s.effAddr 0 ≠ s.effAddr 2 := mt effAddr_inj.mp (by decide)
  have h12 : s.effAddr 1 ≠ s.effAddr 2 := mt effAddr_inj.mp (by decide)
  have hm1 : (s.writeByte (s.effAddr 0) (hundreds (s.reg x))).mem.wf = true := Memory.wf_write _ _ hm
  refine ⟨_, rfl, ?_, fun ha => ?_, fun ha => ?_, onlyWrites_execLdB rfl⟩
  · rw [State.readByte_writeByte_other _ _ h02, State.readByte_writeByte_other _ _ h01,
      State.readByte_writeByte_same _ hm (effAddr_zero_inside s), hundreds_toNat]
  · rw [State.readByte_writeByte_other _ _ h12, State.readByte_writeByte_same _ hm1 ha, tens_toNat]
  · rw [State.readByte_writeByte_same _ (Memory.wf_write _ _ hm1) ha, units_toNat]

/-! ### The register dump and load (R215, R216) -/

/-- `LD [I], Vx` writes the bytes from I to I + x, those that lie in memory (R215). -/
theorem onlyWrites_execLdMemVx {x : RegIdx} {s t : State} (h : execLdMemVx x s = .next t) :
    OnlyWrites s t (fun p => ∃ k, k ≤ x.toNat ∧ s.effAddr k < Config.memSize ∧ p = .byte (s.effAddr k)) := by
  cases h
  refine onlyWrites_setMem s _ _ fun a ha => ?_
  refine read_dumpFrom_other _ _ _ fun j _ hj hSize e => ha ⟨j, by omega, hSize, ?_⟩
  rw [e, effAddr_zero_add]

/-- Settles O41: the dump stores each register at its effective address, and nothing else. -/
theorem dumpStoresTheRegisters : Obligations.DumpStoresTheRegisters := by
  intro x s hm
  refine ⟨_, rfl, fun k hk ha => ?_, onlyWrites_execLdMemVx rfl⟩
  rw [← effAddr_zero_add s k.toNat] at ha ⊢
  rw [State.setMem_readByte, read_dumpFrom_same _ _ hm (Nat.zero_le _) (by omega) ha, BitVec.ofNat_toNat,
    BitVec.setWidth_eq]
  rfl

/-- `LD Vx, [I]` writes the registers V0 to VX whose bytes lie in memory (R216). -/
theorem onlyWrites_execLdVxMem {x : RegIdx} {s t : State} (h : execLdVxMem x s = .next t) :
    OnlyWrites s t
      (fun p => ∃ k : RegIdx, k.toNat ≤ x.toNat ∧ s.effAddr k.toNat < Config.memSize ∧ p = .reg k) := by
  cases h
  refine onlyWrites_setRegs s _ _ fun z hz => readReg_loadFrom_other _ _ _ z (by omega) ?_
  rintro ⟨-, hle, hSize⟩
  exact hz ⟨z, by omega, hSize, rfl⟩

/-- Settles O42: the load reads each register from its effective address, and writes nothing else. -/
theorem loadReadsTheRegisters : Obligations.LoadReadsTheRegisters := by
  intro x s
  refine ⟨_, rfl, fun k hk ha => ?_, onlyWrites_execLdVxMem rfl⟩
  rw [← effAddr_zero_add s k.toNat] at ha ⊢
  rw [State.setRegs_reg, readReg_loadFrom_same _ _ _ k (by omega) (Nat.zero_le _) (by omega) ha]
  rfl

end Sys2Proof.Machine
end

section
/-! Proofs of the statements about drawing (44_display.md R241, R242). -/

namespace Sys2Proof.Machine

/-- What `DRW` does, said once: it XORs the sprite onto the framebuffer, sets VF to whether a pixel that was on got a
sprite bit, and changes nothing but VF and the pixels under a sprite bit (R241). -/
theorem exec_drw_spec (x y : RegIdx) (n : Nibble) (s : State) :
    ∃ t, exec (.drw x y n) s = .next t ∧
      (∀ px py, t.pixel px py = (s.pixel px py ^^ s.spritePixel (s.reg x) (s.reg y) n px py)) ∧
      (∃ hit, t.reg vf = flagByte hit ∧
        (hit = true ↔ ∃ px py, s.pixel px py = true ∧ s.spritePixel (s.reg x) (s.reg y) n px py = true)) ∧
      OnlyWrites s t
        (fun p => p = .reg vf ∨ ∃ px py, p = .pixel px py ∧ s.spritePixel (s.reg x) (s.reg y) n px py = true) := by
  have hx := (s.reg x).isLt
  have hy := (s.reg y).isLt
  have hn : n.toNat ≤ 32 := by omega
  have hPixel : ∀ px py, Framebuffer.pixel
      (drawSprite s.mem (s.effAddr 0) (s.reg x).toNat (s.reg y).toNat n.toNat (s.fb, false)).1 px py =
        (s.pixel px py ^^ s.spritePixel (s.reg x) (s.reg y) n px py) := fun px py => by
    rw [pixel_drawSprite _ _ _ hx hy hn, spriteAt_eq_spritePixel]
    rfl
  refine ⟨_, rfl, hPixel, ⟨_, State.reg_setReg_self _ _ _, ?_⟩, ?_⟩
  · refine (hit_drawSprite _ _ _ hx hy hn).trans ?_
    simp only [Bool.false_eq_true, false_or, State.setReg_mem, spriteAt_eq_spritePixel]
    rfl
  · refine (((onlyWrites_setReg s vf _).mono fun _ => .inl).trans
      (onlyWrites_setFb _ _ _ fun px py hp => ?_)).trans ((onlyWrites_setReg _ vf _).mono fun _ => .inl)
    have hOff := Bool.eq_false_iff.mpr fun hOn => hp (.inr ⟨px, py, rfl, hOn⟩)
    exact (hPixel px py).trans (by rw [hOff, Bool.xor_false]; rfl)

/-- Settles O46: the pixels and the frame are two clauses of `exec_drw_spec`. -/
theorem drawXorsTheSprite : Obligations.DrawXorsTheSprite := by
  intro x y n s
  obtain ⟨t, hx, hPixel, -, hFrame⟩ := exec_drw_spec x y n s
  exact ⟨t, hx, hPixel, hFrame⟩

/-- Settles O47: a pixel that was on goes off exactly when it gets a sprite bit. -/
theorem drawFlagsACollision : Obligations.DrawFlagsACollision := by
  intro x y n s
  obtain ⟨t, hx, hPixel, ⟨hit, hFlag, hHit⟩, -⟩ := exec_drw_spec x y n s
  refine ⟨t, hx, ?_, fun hKept => ?_⟩
  · rintro ⟨px, py, hOn, hOff⟩
    have hSprite : s.spritePixel (s.reg x) (s.reg y) n px py = true := by
      simpa [hPixel, hOn] using hOff
    rw [hFlag, hHit.mpr ⟨px, py, hOn, hSprite⟩]
    rfl
  · have hMiss : hit = false := Bool.eq_false_iff.mpr fun h => by
      obtain ⟨px, py, hOn, hSprite⟩ := hHit.mp h
      simpa [hPixel, hOn, hSprite] using hKept px py hOn
    rw [hFlag, hMiss]
    rfl

/-- The sprite depends on memory and I only (R241). -/
theorem spritePixel_congr {s t : State} (hMem : ∀ a, t.readByte a = s.readByte a) (hI : t.i = s.i) (x0 y0 : Byte)
    (n : Nibble) (px : Fin 64) (py : Fin 32) : t.spritePixel x0 y0 n px py = s.spritePixel x0 y0 n px py := by
  simp only [State.spritePixel, State.effAddr, hMem, hI]

/-- The flag is 1 exactly when it stands for true. -/
theorem flagByte_eq_one_iff (b : Bool) : flagByte b = 1#8 ↔ b = true := by
  cases b <;> decide

/-- Settles O48: the first draw leaves memory and I, so the second XORs the same sprite, which restores the pixels; it
collides on the pixels that the first turned on. -/
theorem drawingTwiceRestoresThePixels : Obligations.DrawingTwiceRestoresThePixels := by
  intro x y n s t u hst htx hty htu
  obtain ⟨t', ht, hPixel, -, hFrame⟩ := exec_drw_spec x y n s
  cases ht.symm.trans hst
  obtain ⟨u', hu, hPixel', ⟨hit, hFlag, hHit⟩, -⟩ := exec_drw_spec x y n t
  cases hu.symm.trans htu
  have hMem : ∀ a, t.readByte a = s.readByte a := fun a => hFrame (.byte a) (by simp)
  have hI : t.i = s.i := hFrame .i (by simp)
  simp only [htx, hty, spritePixel_congr hMem hI] at hPixel' hHit
  constructor
  · intro px py
    rw [hPixel', hPixel, Bool.xor_assoc, Bool.xor_self, Bool.xor_false]
  · rw [hFlag, flagByte_eq_one_iff, hHit]
    refine exists_congr fun px => exists_congr fun py => ?_
    rw [hPixel]
    cases s.pixel px py <;> simp

end Sys2Proof.Machine
end

section
/-! Proofs of the statements about the sound timer and the host transactions (45_keypad_timer.md section 2,
40_cycle_and_interface.md sections 2 and 3). -/

namespace Sys2Proof.Machine

/-! ### The sound timer (45_keypad_timer.md R265) -/

/-- `LD ST, Vx` sets ST and records a tone request if VX is positive (R265). -/
theorem execLdStVx_st_tones {x : RegIdx} {s t : State} (h : execLdStVx x s = .next t) :
    t.st = s.reg x ∧ t.tones = s.tones ++ (if 0 < (s.reg x).toNat then [s.reg x] else []) := by
  unfold execLdStVx at h
  dsimp only at h
  split at h <;> cases h
  · rw [if_pos ‹_›]
    exact ⟨rfl, rfl⟩
  · rw [if_neg ‹_›]
    exact ⟨rfl, (List.append_nil _).symm⟩

/-- `LD ST, Vx` always answers a next state. -/
theorem execLdStVx_next (x : RegIdx) (s : State) : ∃ t, execLdStVx x s = .next t := by
  unfold execLdStVx
  dsimp only
  split <;> exact ⟨_, rfl⟩

/-- Settles O51: the instruction completes, and its values and its frame hold whether it requests a tone or not. -/
theorem soundTimerWriteRequestsATone : Obligations.SoundTimerWriteRequestsATone := by
  intro x s
  obtain ⟨t, h⟩ := execLdStVx_next x s
  obtain ⟨hSt, hTones⟩ := execLdStVx_st_tones h
  exact ⟨t, h, hSt, hTones, onlyWrites_execLdStVx h⟩

/-! ### The tick (R120, R121) -/

theorem tickTimer_toNat (b : Byte) : (tickTimer b).toNat = b.toNat - 1 := by
  unfold tickTimer
  split
  · rw [BitVec.toNat_sub_of_le (by rw [BitVec.le_def]; assumption)]
    rfl
  · omega

/-- The tick writes the two timers. -/
theorem onlyWrites_decrementTimers (s : State) : OnlyWrites s (decrementTimers s) (fun p => p = .dt ∨ p = .st) :=
  ((onlyWrites_setDt s _).mono fun _ => .inl).trans ((onlyWrites_setSt _ _).mono fun _ => .inr)

/-- Settles O52: the tick is a `setDt` and a `setSt`, each of the timer one lower. -/
theorem tickDecrementsTheTimers : Obligations.TickDecrementsTheTimers := by
  intro cfg s
  exact ⟨_, rfl, tickTimer_toNat s.dt, tickTimer_toNat s.st, onlyWrites_decrementTimers s⟩

/-! ### `load` (R123) -/

theorem isByte_iff {z : Int} : isByte z = true ↔ 0 ≤ z ∧ z < 256 := by
  simp [isByte]

theorem all_isByte_iff {bytes : List Int} : bytes.all isByte = true ↔ ∀ b ∈ bytes, 0 ≤ b ∧ b < 256 := by
  simp only [List.all_eq_true, isByte_iff]

/-- The bytes of a `load` that fit below the end of memory. -/
def fittingBytes (bytes : List Int) (offset : Nat) : List Byte :=
  (bytes.take (min bytes.length (Config.memSize - offset))).map (BitVec.ofInt 8)

theorem lt_length_fittingBytes {bytes : List Int} {offset k : Nat} :
    k < (fittingBytes bytes offset).length ↔ k < bytes.length ∧ offset + k < Config.memSize := by
  simp only [fittingBytes, List.length_map, List.length_take]
  omega

/-- A byte of `load` that fits is copied verbatim. -/
theorem getElem_fittingBytes {bytes : List Int} {offset k : Nat} (hk : k < (fittingBytes bytes offset).length)
    (hk' : k < bytes.length) (hb : 0 ≤ bytes[k] ∧ bytes[k] < 256) :
    (((fittingBytes bytes offset)[k]).toNat : Int) = bytes[k] := by
  simp only [fittingBytes, List.getElem_map, List.getElem_take, BitVec.toNat_ofInt]
  omega

/-- `load` of bytes at a natural offset copies those that fit. -/
theorem load_of_bytes {bytes : List Int} (offset : Nat) (s : State) (h : ∀ b ∈ bytes, 0 ≤ b ∧ b < 256) :
    load bytes (.integer offset) s = (s.setMem (copyBytes s.mem offset (fittingBytes bytes offset)), .ok) := by
  have hOffset : ¬ (offset : Int) < 0 := by omega
  simp only [load, all_isByte_iff.mpr h, if_true, if_neg hOffset]
  rfl

/-- Settles O53: the bytes that fit are copied one after another, each is read back, and no other byte changes. -/
theorem loadCopiesTheBytesThatFit : Obligations.LoadCopiesTheBytesThatFit := by
  intro cfg bytes offset s hm hBytes
  refine ⟨_, load_of_bytes offset s hBytes, fun k hk hSize => ?_, onlyWrites_setMem s _ _ fun a ha => ?_⟩
  · have hFit := lt_length_fittingBytes.mpr ⟨hk, hSize⟩
    rw [State.setMem_readByte, read_copyBytes_same _ hm hFit hSize]
    exact getElem_fittingBytes hFit hk (hBytes _ (List.getElem_mem hk))
  · refine read_copyBytes_other _ _ fun k hFit e => ha ?_
    obtain ⟨hk, hSize⟩ := lt_length_fittingBytes.mp hFit
    exact ⟨k, hk, hSize, by rw [e]⟩

/-- Settles O54: the checks are made in this order, and a rejection answers the state itself. -/
theorem loadRejectsBadArguments : Obligations.LoadRejectsBadArguments := by
  intro cfg bytes s
  refine ⟨rfl, fun o hBad => ?_, fun o ho hGood => ?_⟩
  · obtain ⟨b, hb, hRange⟩ := hBad
    have hAll : ¬ bytes.all isByte = true := fun h => by
      have := all_isByte_iff.mp h b hb
      omega
    simp only [transact, load, if_neg hAll]
  · have hAll : bytes.all isByte = true := all_isByte_iff.mpr fun b hb => by
      have := hGood b hb
      omega
    simp only [transact, load, if_pos hAll, if_pos ho]

/-! ### The key transactions (R124, R125) -/

theorem isKeyId_iff {id : Int} : isKeyId id = true ↔ 0 ≤ id ∧ id < 16 := by
  simp [isKeyId]

theorem setKeyPressed_of_id {id : Int} (s : State) (h : isKeyId id = true) :
    setKeyPressed id s = (s.setKeys (s.keys ||| keyBit id), .ok) :=
  if_pos h

theorem setKeyReleased_of_id {id : Int} (s : State) (h : isKeyId id = true) :
    setKeyReleased id s = (s.setKeys (s.keys &&& ~~~keyBit id), .ok) :=
  if_pos h

theorem pressed_setKeys (s : State) (keys : BitVec 16) (k : Byte) :
    (s.setKeys keys).pressed k = (decide (k.toNat < 16) && keys.getLsbD k.toNat) := rfl

/-- The bit of a key id is set at that id only. -/
theorem getLsbD_keyBit {id : Int} (h : isKeyId id = true) (k : Nat) :
    (keyBit id).getLsbD k = decide ((k : Int) = id) := by
  obtain ⟨h0, h16⟩ := isKeyId_iff.mp h
  rw [keyBit, BitVec.getLsbD_twoPow, Bool.eq_iff_iff, Bool.and_eq_true, decide_eq_true_iff, decide_eq_true_iff,
    decide_eq_true_iff]
  omega

/-- Pressing sets the bit of one key. -/
theorem pressed_after_press {id : Int} (s : State) (h : isKeyId id = true) (k : Byte) :
    (s.setKeys (s.keys ||| keyBit id)).pressed k = (decide ((k.toNat : Int) = id) || s.pressed k) := by
  rw [pressed_setKeys, BitVec.getLsbD_or, getLsbD_keyBit h, State.pressed]
  have := isKeyId_iff.mp h
  by_cases hk : (k.toNat : Int) = id
  · have : k.toNat < 16 := by omega
    simp [hk, this]
  · simp [hk]

/-- Releasing clears the bit of one key. -/
theorem pressed_after_release {id : Int} (s : State) (h : isKeyId id = true) (k : Byte) :
    (s.setKeys (s.keys &&& ~~~keyBit id)).pressed k = (decide ((k.toNat : Int) ≠ id) && s.pressed k) := by
  rw [pressed_setKeys, BitVec.getLsbD_and, BitVec.getLsbD_not, getLsbD_keyBit h, State.pressed]
  by_cases hLt : k.toNat < 16 <;> by_cases hk : (k.toNat : Int) = id <;> simp [hLt, hk]

/-- Settles O55: an id in range sets or clears its own bit, any other is rejected. -/
theorem keyTransactionsSetOneKey : Obligations.KeyTransactionsSetOneKey := by
  refine fun cfg id s => ⟨fun hRange => ?_, fun hRange => ?_⟩
  · have h : isKeyId id = true := isKeyId_iff.mpr (by omega)
    exact ⟨⟨_, setKeyPressed_of_id s h, pressed_after_press s h, onlyWrites_setKeys s _⟩,
      _, setKeyReleased_of_id s h, pressed_after_release s h, onlyWrites_setKeys s _⟩
  · have h : ¬ isKeyId id = true := fun h => by
      have := isKeyId_iff.mp h
      omega
    exact ⟨if_neg h, if_neg h⟩

/-! ### The snapshot (R126) and the creation state (10_state.md R38) -/

/-- Settles O56: the reply is the framebuffer itself. -/
theorem snapshotCopiesTheFramebuffer : Obligations.SnapshotCopiesTheFramebuffer :=
  fun _ s => ⟨s.fb, rfl, fun _ _ => rfl⟩

/-- An empty memory reads 0x00 everywhere. -/
theorem read_empty (a : Nat) : Memory.read [] a = 0#8 := ite_self _

/-- Settles O17: every part of the state at creation, by its accessor. -/
theorem creationState : Obligations.CreationState := by
  refine ⟨fun x => ?_, rfl, rfl, rfl, rfl, rfl, fun k => ?_, Framebuffer.allOff_pixel, read_empty, rfl⟩
  · exact Vector.getElem_replicate _
  · exact Bool.eq_false_iff.mpr fun h => by simpa [State.reset] using ((pressed_iff _ k).mp h).2

end Sys2Proof.Machine
end

section
/-! Proofs of the frame of every instruction and of what follows from it about memory, the stack and the keypad
(40_cycle_and_interface.md R114, R127; 20_memory.md R50; 10_state.md R26, R30). -/

namespace Sys2Proof.Machine

/-! ### The frame of an instruction (R114) -/

/-- `LD Vx, K` writes VX if a key is pressed, and the program counter if none is (45_keypad_timer.md R263). -/
theorem onlyWrites_execLdVxK_writes {x : RegIdx} {s t : State} (h : execLdVxK x s = .next t) :
    OnlyWrites s t (writes s (.ldVxK x)) := by
  cases hKey : s.lowestKey with
  | none =>
    cases (exec_ldVxK_of_none x hKey).symm.trans h
    have hKeys : s.keys = 0#16 := BitVec.eq_of_getLsbD_eq fun k hk => by
      rw [(lowestKey_eq_none_iff s).mp hKey k hk, BitVec.getLsbD_zero]
    exact (onlyWrites_setPc s _).mono fun _ hp => .inr ⟨hp, hKeys⟩
  | some b =>
    cases (exec_ldVxK_of_some x hKey).symm.trans h
    obtain ⟨-, hOn, -⟩ := lowestKey_eq_some hKey
    have hKeys : s.keys ≠ 0#16 := fun e => by simp [e] at hOn
    exact (onlyWrites_setReg s x _).mono fun _ hp => .inl ⟨hp, hKeys⟩

/-- A pixel under a sprite bit is one of the cells of the sprite's n rows and 8 columns (44_display.md R241). -/
theorem exists_cell_of_spritePixel {s : State} {x0 y0 : Byte} {n : Nibble} {px : Fin 64} {py : Fin 32}
    (h : s.spritePixel x0 y0 n px py = true) :
    ∃ r c, r < n.toNat ∧ c < 8 ∧ Part.pixel px py = .pixel (column x0.toNat c) (row y0.toNat r) := by
  simp only [State.spritePixel, Bool.and_eq_true, decide_eq_true_eq] at h
  obtain ⟨hr, hc, -⟩ := h
  refine ⟨_, _, hr, hc, ?_⟩
  rw [← (column_eq_iff x0.isLt (by omega) px).mpr rfl, ← (row_eq_iff y0.isLt (by omega) py).mpr rfl]

/-- `DRW` writes VF and cells of the sprite (44_display.md R241). -/
theorem onlyWrites_execDrw {x y : RegIdx} {n : Nibble} {s t : State} (h : execDrw x y n s = .next t) :
    OnlyWrites s t (writes s (.drw x y n)) := by
  obtain ⟨t', ht, -, -, hFrame⟩ := exec_drw_spec x y n s
  cases ht.symm.trans h
  refine hFrame.mono fun p hp => hp.imp id ?_
  rintro ⟨px, py, rfl, hSprite⟩
  exact exists_cell_of_spritePixel hSprite

/-- Settles O20: each instruction is put together from operations whose frames are known. -/
theorem instructionsWriteOnlyTheirParts : Obligations.InstructionsWriteOnlyTheirParts := by
  intro i s t h
  cases i with
  | cls z =>
    cases h
    exact onlyWrites_setFb s _ _ fun x y hp => absurd ⟨x, y, rfl⟩ hp
  | ret z => exact onlyWrites_execRet (z := z) h
  | jp | jpV0 =>
    cases h
    exact onlyWrites_setPc s _
  | call nnn =>
    cases h
    exact (onlyWrites_push s s.pc).then_setPc _
  | seImm | sneImm | seReg | sneReg | skp | sknp =>
    cases h
    exact onlyWrites_skipIf s _ _
  | ldImm | addImm | ldReg | orReg | andReg | xorReg | ldVxDt =>
    cases h
    exact onlyWrites_setReg s _ _
  | addReg | sub | subn =>
    cases h
    exact onlyWrites_setReg_setReg s _ vf _ _
  | shr | shl =>
    cases h
    exact (onlyWrites_setReg_setReg s vf _ _ _).mono fun _ => Or.symm
  | ldI | addI | ldF =>
    cases h
    exact onlyWrites_setI s _
  | rnd x nn =>
    cases h
    exact onlyWrites_nextDraw_setReg s x _
  | drw x y n => exact onlyWrites_execDrw h
  | ldVxK x => exact onlyWrites_execLdVxK_writes h
  | ldDtVx x =>
    cases h
    exact onlyWrites_setDt s _
  | ldStVx x => exact onlyWrites_execLdStVx h
  | ldB x => exact onlyWrites_execLdB h
  | ldMemVx x => exact onlyWrites_execLdMemVx h
  | ldVxMem x => exact onlyWrites_execLdVxMem h

/-! ### The writers of a part -/

/-- A part that an instruction changes is one its rule writes. -/
theorem writes_of_change {i : Instr} {s t : State} {p : Part} (h : exec i s = .next t) (hp : ¬ p.agrees s t) :
    writes s i p :=
  by_contra fun hw => hp (instructionsWriteOnlyTheirParts i s t h p hw)

theorem writes_byte {s : State} {i : Instr} {a : Nat} (h : writes s i (.byte a)) :
    ∃ x, i = .ldB x ∨ i = .ldMemVx x := by
  cases i with
  | ldB x => exact ⟨x, .inl rfl⟩
  | ldMemVx x => exact ⟨x, .inr rfl⟩
  | _ => simp [writes, skipWrites] at h

theorem writes_stack {s : State} {i : Instr} (h : writes s i .stack) :
    (∃ nnn, i = .call nnn) ∨ ∃ z, i = .ret z := by
  cases i with
  | call nnn => exact .inl ⟨nnn, rfl⟩
  | ret z => exact .inr ⟨z, rfl⟩
  | _ => simp [writes, skipWrites] at h

theorem writes_tones {s : State} {i : Instr} (h : writes s i .tones) : ∃ x, i = .ldStVx x := by
  cases i with
  | ldStVx x => exact ⟨x, rfl⟩
  | _ => simp [writes, skipWrites] at h

theorem not_writes_keys (s : State) (i : Instr) : ¬ writes s i .keys := by
  cases i <;> simp [writes, skipWrites]

/-! ### The frame of a transaction (R127) -/

/-- A cycle leaves the keypad state (10_state.md R30). -/
theorem emulateCycle_keys (cfg : Config) (s : State) : (emulateCycle cfg s).1.keys = s.keys := by
  by_contra h
  obtain ⟨i, -, hx⟩ := emulateCycle_change_executed State.keys (fun _ => rfl) (fun _ _ _ _ => rfl) h
  exact not_writes_keys _ i (writes_of_change (p := .keys) hx h)

/-- `load` writes bytes of memory. -/
theorem onlyWrites_load (bytes : List Int) (offset : HostArg) (s : State) :
    OnlyWrites s (load bytes offset s).1 (fun p => ∃ a, p = .byte a) := by
  obtain ⟨m, hm⟩ := load_state bytes offset s
  rw [hm]
  exact onlyWrites_setMem s m _ fun a ha => absurd ⟨a, rfl⟩ ha

theorem onlyWrites_setKeyPressed (id : Int) (s : State) :
    OnlyWrites s (setKeyPressed id s).1 (fun p => p = .keys) := by
  obtain ⟨k, hk⟩ := setKeyPressed_state id s
  rw [hk]
  exact onlyWrites_setKeys s k

theorem onlyWrites_setKeyReleased (id : Int) (s : State) :
    OnlyWrites s (setKeyReleased id s).1 (fun p => p = .keys) := by
  obtain ⟨k, hk⟩ := setKeyReleased_state id s
  rw [hk]
  exact onlyWrites_setKeys s k

/-- Settles O59, transaction by transaction. -/
theorem transactionsWriteOnlyTheirState : Obligations.TransactionsWriteOnlyTheirState := by
  intro cfg tr s
  cases tr with
  | emulateCycle =>
    intro p hp
    cases not_not.mp hp
    exact emulateCycle_keys cfg s
  | decrementTimers => exact onlyWrites_decrementTimers s
  | load bytes offset => exact onlyWrites_load bytes offset s
  | setKeyPressed id => exact onlyWrites_setKeyPressed id s
  | setKeyReleased id => exact onlyWrites_setKeyReleased id s
  | readFramebuffer => exact OnlyWrites.refl s _

/-- A part that a transaction changes is one its row of the table names. -/
theorem transactionWrites_of_change {cfg : Config} {tr : Transaction} {s : State} {p : Part}
    (hp : ¬ p.agrees s (transact cfg tr s).1) : transactionWrites tr p :=
  by_contra fun hw => hp (transactionsWriteOnlyTheirState cfg tr s p hw)

/-- Settles O23: of the transactions only `load` and the cycle write bytes, and a cycle changes one only by an
instruction that writes it. -/
theorem memoryChangesOnlyByItsWriters : Obligations.MemoryChangesOnlyByItsWriters := by
  intro cfg tr s a h
  have hw : transactionWrites tr (.byte a) := transactionWrites_of_change h
  cases tr with
  | load bytes offset => exact .inl ⟨bytes, offset, rfl⟩
  | emulateCycle =>
    obtain ⟨i, hd, hx⟩ := emulateCycle_change_executed (·.readByte a) (fun _ => rfl) (fun _ _ _ _ => rfl) h
    obtain ⟨x, rfl | rfl⟩ := writes_byte (writes_of_change (p := .byte a) hx h)
    · exact .inr ⟨rfl, x, .inl hd⟩
    · exact .inr ⟨rfl, x, .inr hd⟩
  | _ => simp [transactionWrites] at hw

/-- Settles O24: of the transactions only the cycle writes the stack, and only by an instruction that writes it; only the
key transactions write the keypad state. -/
theorem stackAndKeysChangeOnlyByTheirWriters : Obligations.StackAndKeysChangeOnlyByTheirWriters := by
  refine fun cfg tr s => ⟨fun h => ?_, fun h => ?_⟩
  · have hw : transactionWrites tr .stack := transactionWrites_of_change h
    cases tr with
    | emulateCycle =>
      obtain ⟨i, hd, hx⟩ := emulateCycle_change_executed State.stack (fun _ => rfl) (fun _ _ _ _ => rfl) h
      obtain ⟨nnn, rfl⟩ | ⟨z, rfl⟩ := writes_stack (writes_of_change (p := .stack) hx h)
      · exact ⟨rfl, .inl ⟨nnn, hd⟩⟩
      · exact ⟨rfl, .inr ⟨z, hd⟩⟩
    | _ => simp [transactionWrites] at hw
  · have hw : transactionWrites tr .keys := transactionWrites_of_change h
    cases tr with
    | setKeyPressed id => exact ⟨id, .inl rfl⟩
    | setKeyReleased id => exact ⟨id, .inr rfl⟩
    | _ => simp [transactionWrites] at hw

end Sys2Proof.Machine
end

section
/-! Proofs of the statements about the cycle and its faults (40_cycle_and_interface.md section 1, 60_exceptions.md). -/

namespace Sys2Proof.Machine

/-! ### One equation per kind of cycle (R115) -/

theorem advanceThen_inside {s : State} (run : State → Result) (w : Word) (ha : s.CanAdvance) :
    advanceThen run w s = run s.advance :=
  if_neg (Nat.not_le.mpr ha)

theorem advanceThen_outside {s : State} (run : State → Result) (w : Word) (ha : ¬ s.CanAdvance) :
    advanceThen run w s = .next (s.takeFault .boundsFault s.pc w) :=
  if_pos (Nat.not_lt.mp ha)

/-- A word is an instruction or an unrecognized secondary code (30_encoding.md R85, R88). -/
theorem decode_cases (w : Word) : (∃ i, decode w = .ok i) ∨ decode w = .error .unrecognizedSecondary := by
  match h : decode w with
  | .ok i => exact .inl ⟨i, rfl⟩
  | .error .unrecognizedSecondary => exact .inr rfl
  | .error .unknownFamily => exact absurd h (rejectedWordsAreTheUnrecognizedOnes w).2

/-- A running core's cycle on a word that decodes. -/
theorem cycle_of_ok (cfg : Config) {s : State} {i : Instr} (hr : s.Running) (hd : decode s.fetchWord = .ok i) :
    cycle cfg s = advanceThen (exec i) s.fetchWord s := by
  unfold State.Running at hr
  rw [cycle, hr]
  show runCycle cfg s = _
  rw [runCycle, hd]

/-- A running core's cycle on an unrecognized word (30_encoding.md R89, R92). -/
theorem cycle_of_unrecognized (cfg : Config) {s : State} (hr : s.Running)
    (hd : decode s.fetchWord = .error .unrecognizedSecondary) :
    cycle cfg s = if cfg.strictSecondary then .next (s.takeFault .decodeFault s.pc s.fetchWord)
      else advanceThen execUnrecognized s.fetchWord s := by
  unfold State.Running at hr
  rw [cycle, hr]
  show runCycle cfg s = _
  rw [runCycle, hd]
  rfl

/-- Settles O8: decoding the two bytes is decoding the fetched word. -/
theorem stepRunsTheDecodedInstruction : Obligations.StepRunsTheDecodedInstruction := by
  intro s i hr ha hd
  have hCycle := fun cfg => cycle_of_decode cfg hr ha (decodeBytes_eq_ok_iff.mp hd)
  exact ⟨hCycle _, hCycle⟩

/-- Settles O9: the canonical configuration executes nothing after the advance. -/
theorem unrecognizedWordIsNoOperation : Obligations.UnrecognizedWordIsNoOperation := by
  intro s hr ha hw
  have hd := (rejectedWordsAreTheUnrecognizedOnes s.fetchWord).1.mpr hw
  have hStep : step s = .next s.advance :=
    (cycle_of_unrecognized _ hr hd).trans (advanceThen_inside _ _ ha)
  exact ⟨_, hStep, rfl, onlyWrites_setPc s _⟩

/-- Settles O10: whatever the word, the canonical configuration comes to the advance, which faults. -/
theorem advancePastMemoryFaults : Obligations.AdvancePastMemoryFaults := by
  intro s hr ha
  have hStep : step s = .next (s.takeFault .boundsFault s.pc s.fetchWord) := by
    obtain ⟨i, hd⟩ | hd := decode_cases s.fetchWord
    · exact (cycle_of_ok _ hr hd).trans (advanceThen_outside _ _ ha)
    · exact (cycle_of_unrecognized _ hr hd).trans (advanceThen_outside _ _ ha)
  exact ⟨_, hStep, rfl, onlyWrites_takeFault_here s _ _⟩

/-- Settles O11: the strict configuration faults at decode, before the advance. -/
theorem strictDecodeFaultComesFirst : Obligations.StrictDecodeFaultComesFirst := by
  intro s hr hw
  have hd := (rejectedWordsAreTheUnrecognizedOnes s.fetchWord).1.mpr hw
  exact ⟨_, cycle_of_unrecognized _ hr hd, rfl, onlyWrites_takeFault_here s _ _⟩

/-- Settles O12: the recorded fault is looked at first. -/
theorem haltedCoreReturnsItsFault : Obligations.HaltedCoreReturnsItsFault := by
  intro cfg s f hf
  have hCycle : cycle cfg s = .fault (.halted f) := by rw [cycle, hf]
  refine ⟨hCycle, ?_⟩
  show emulateCycle cfg s = _
  rw [emulateCycle, hCycle]

/-! ### Every cycle completes (R115, R129) -/

/-- Every instruction answers a next state in every state. -/
theorem exec_next (i : Instr) (s : State) : ∃ t, exec i s = .next t := by
  cases i with
  | ret z =>
    show ∃ t, execRet z s = .next t
    unfold execRet
    split <;> exact ⟨_, rfl⟩
  | ldVxK x =>
    show ∃ t, execLdVxK x s = .next t
    unfold execLdVxK
    split <;> exact ⟨_, rfl⟩
  | ldStVx x => exact execLdStVx_next x s
  | _ => exact ⟨_, rfl⟩

/-- The advance answers a next state if what runs after it does. -/
theorem advanceThen_next {run : State → Result} (h : ∀ s, ∃ t, run s = .next t) (w : Word) (s : State) :
    ∃ t, advanceThen run w s = .next t := by
  by_cases ha : s.CanAdvance
  · rw [advanceThen_inside _ _ ha]
    exact h _
  · exact ⟨_, advanceThen_outside _ _ ha⟩

/-- Settles O16: the faults are next states, and so is the answer of every instruction. -/
theorem everyRunningCycleCompletes : Obligations.EveryRunningCycleCompletes := by
  refine ⟨fun cfg s hr => ?_, exec_next⟩
  obtain ⟨i, hd⟩ | hd := decode_cases s.fetchWord
  · rw [cycle_of_ok cfg hr hd]
    exact advanceThen_next (exec_next i) _ s
  · rw [cycle_of_unrecognized cfg hr hd]
    split
    · exact ⟨_, rfl⟩
    · exact advanceThen_next (fun s => ⟨s, rfl⟩) _ s

/-! ### The faults a cycle can record (60_exceptions.md R301 to R308) -/

/-- A conditional skip faults only past the end of memory, with its own address and word (41_control_flow.md R140). -/
theorem skipIf_fault {s t : State} {c : Bool} {w : Word} {f : FaultRecord}
    (h : (.next (s.skipIf c w) : Result) = .next t) (hr : s.Running) (hf : t.fault = some f) :
    ¬ s.CanAdvance ∧ t = s.takeFault .boundsFault (s.pc - 2#16) w := by
  cases h
  have hChanged : (s.skipIf c w).fault ≠ s.fault := by
    rw [hf, hr]
    exact Option.some_ne_none f
  have ha : ¬ s.CanAdvance := fun ha => hChanged ((skipIf_inside w ha Iff.rfl).2 .fault (by simp))
  have hc : c = true := by_contra fun hc => hChanged (by rw [skipIf_of_false w (Bool.eq_false_iff.mpr hc)])
  exact ⟨ha, skipIf_outside w ha hc⟩

/-- The only fault of an instruction is that of a skip past the end of memory. -/
theorem exec_fault {i : Instr} {s t : State} {f : FaultRecord} (h : exec i s = .next t) (hr : s.Running)
    (hf : t.fault = some f) : ¬ s.CanAdvance ∧ t = s.takeFault .boundsFault (s.pc - 2#16) (encode i) := by
  cases i with
  | seImm | sneImm | seReg | sneReg | skp | sknp => exact skipIf_fault h hr hf
  | _ =>
    have hSame : t.fault = s.fault := instructionsWriteOnlyTheirParts _ s t h .fault (by simp [writes])
    rw [hf, hr] at hSame
    contradiction

/-- A cycle that records a fault leaves the state of its start with that fault taken, and the fault is a DecodeFault of a
rejected word or a BoundsFault in the last four bytes of memory. -/
theorem cycle_fault {cfg : Config} {s t : State} {f : FaultRecord} (h : cycle cfg s = .next t)
    (hf : t.fault = some f) :
    t = s.takeFault f.kind s.pc s.fetchWord ∧
      ((f.kind = .decodeFault ∧ ∃ r, decode s.fetchWord = .error r ∧ rejectFaults cfg r = true) ∨
        (f.kind = .boundsFault ∧ Config.memSize ≤ s.pc.toNat + 4)) := by
  obtain ⟨hr, ⟨r, hd, hReject, rfl⟩ | ⟨ha, rfl⟩ | ⟨ha, i, hd, hx⟩ | ⟨-, r, -, -, rfl⟩⟩ := cycle_cases h
  · cases hf
    exact ⟨rfl, .inl ⟨rfl, r, hd, hReject⟩⟩
  · cases hf
    have hPast : Config.memSize ≤ s.pc.toNat + 2 := Nat.not_lt.mp ha
    exact ⟨rfl, .inr ⟨rfl, by omega⟩⟩
  · obtain ⟨haSkip, ht⟩ := exec_fault hx hr hf
    rw [advance_sub, encodeRecoversTheWord _ i hd] at ht
    subst ht
    cases hf
    have hPast : Config.memSize ≤ s.advance.pc.toNat + 2 := Nat.not_lt.mp haSkip
    rw [advance_toNat ha] at hPast
    exact ⟨rfl, .inr ⟨rfl, hPast⟩⟩
  · exact absurd (hr.symm.trans hf) (Option.some_ne_none f).symm

/-- Settles O14: the state after is the state at the start with the fault taken at its own address and word. -/
theorem faultsArePrecise : Obligations.FaultsArePrecise := by
  intro cfg s t f _ h hf
  obtain ⟨ht, -⟩ := cycle_fault h hf
  rw [ht] at hf ⊢
  have hRecord := Option.some.inj hf
  exact ⟨congrArg FaultRecord.pc0 hRecord.symm, congrArg FaultRecord.word hRecord.symm,
    onlyWrites_takeFault_here s _ _⟩

/-- In the canonical configuration only an unknown family would fault at decode, and no word has one (30_encoding.md
R88, R89). -/
theorem not_rejectFaults_canonical {w : Word} {r : Reject} (hd : decode w = .error r) :
    rejectFaults Config.canonical r = false := by
  cases r with
  | unknownFamily => exact absurd hd (rejectedWordsAreTheUnrecognizedOnes w).2
  | unrecognizedSecondary => rfl

/-- The fault of a canonical step is a BoundsFault in the last four bytes of memory. -/
theorem step_fault {s t : State} {f : FaultRecord} (h : step s = .next t) (hf : t.fault = some f) :
    f.kind = .boundsFault ∧ Config.memSize ≤ s.pc.toNat + 4 := by
  obtain ⟨-, ⟨-, r, hd, hReject⟩ | hBounds⟩ := cycle_fault h hf
  · rw [not_rejectFaults_canonical hd] at hReject
    contradiction
  · exact hBounds

/-- Settles O13: `step_fault` gives the kind. -/
theorem canonicalStepNeverDecodeFaults : Obligations.CanonicalStepNeverDecodeFaults :=
  fun _ _ _ _ h hf => (step_fault h hf).1

/-- Settles O15: a fault recorded would lie in the last four bytes, by `step_fault`. -/
theorem noFaultAwayFromTheEndOfMemory : Obligations.NoFaultAwayFromTheEndOfMemory := by
  intro s t _ hpc h
  refine Option.eq_none_iff_forall_ne_some.mpr fun f hf => ?_
  have := (step_fault h hf).2
  omega

/-! ### The invariant (10_state.md R24, 41_control_flow.md R142, 60_exceptions.md R303) -/

/-- Settles O18: pc is 0x200, and the stack, memory and the fault status are empty. -/
theorem creationStateMeetsTheInvariant : Obligations.CreationStateMeetsTheInvariant where
  pcInMemory := by decide
  stackInMemory := List.forall_mem_nil _
  memCanonical := Memory.wf_reset
  haltedAtFault := fun _ h => absurd h (Option.some_ne_none _).symm

/-- What the invariant speaks of is as before, or is memory that is canonical again. -/
theorem State.Inv.keep {s t : State} (hs : s.Inv) (hpc : t.pc = s.pc) (hStack : t.stack = s.stack)
    (hMem : t.mem.wf = true) (hFault : t.fault = s.fault) : t.Inv where
  pcInMemory := hpc ▸ hs.pcInMemory
  stackInMemory := hStack ▸ hs.stackInMemory
  memCanonical := hMem
  haltedAtFault := fun f hf => (hs.haltedAtFault f (hFault ▸ hf)).trans hpc.symm

/-- A running core's program counter may move anywhere in memory. -/
theorem State.Inv.setPc {s : State} {a : Word} (hs : s.Inv) (hr : s.Running) (ha : a.toNat < Config.memSize) :
    (s.setPc a).Inv where
  pcInMemory := ha
  stackInMemory := hs.stackInMemory
  memCanonical := hs.memCanonical
  haltedAtFault := fun f hf => absurd (hr.symm.trans hf) (Option.some_ne_none f).symm

/-- A fault taken at an address in memory halts the core there. -/
theorem State.Inv.takeFault {s : State} {a : Word} (hs : s.Inv) (k : FatalKind) (w : Word)
    (ha : a.toNat < Config.memSize) : (s.takeFault k a w).Inv where
  pcInMemory := ha
  stackInMemory := hs.stackInMemory
  memCanonical := hs.memCanonical
  haltedAtFault := fun f hf => by
    cases hf
    rfl

/-- Pushing the program counter of a core saves an address in memory. -/
theorem State.Inv.push {s : State} (hs : s.Inv) : (s.push s.pc).Inv where
  pcInMemory := hs.pcInMemory
  stackInMemory := fun r hr => by
    obtain hOld | hNew := List.mem_append.mp hr
    · exact hs.stackInMemory r hOld
    · rw [List.mem_singleton.mp hNew]
      exact hs.pcInMemory
  memCanonical := hs.memCanonical
  haltedAtFault := hs.haltedAtFault

theorem State.Inv.dropTop {s : State} (hs : s.Inv) : s.dropTop.Inv where
  pcInMemory := hs.pcInMemory
  stackInMemory := fun r hr => hs.stackInMemory r (List.mem_of_mem_dropLast hr)
  memCanonical := hs.memCanonical
  haltedAtFault := hs.haltedAtFault

/-- The program counter of an advanced core can go back by 2 (41_control_flow.md R140, 45_keypad_timer.md R263). -/
theorem State.Inv.back_inside {s : State} (hs : s.Inv) (h2 : 2 ≤ s.pc.toNat) :
    (s.pc - 2#16).toNat < Config.memSize := by
  have := hs.pcInMemory
  rw [BitVec.toNat_sub_of_le (by rw [BitVec.le_def]; exact h2)]
  exact Nat.lt_of_le_of_lt (Nat.sub_le _ _) this

/-- A conditional skip moves the program counter inside memory or back to its fault. -/
theorem State.Inv.skipIf {s : State} (hs : s.Inv) (hr : s.Running) (h2 : 2 ≤ s.pc.toNat) (c : Bool) (w : Word) :
    (s.skipIf c w).Inv := by
  cases c with
  | false => exact hs
  | true =>
    show (s.skip w).Inv
    by_cases ha : s.CanAdvance
    · rw [skip_inside w ha]
      exact hs.setPc hr (lt_of_eq_of_lt (advance_toNat ha) ha)
    · rw [skip_outside w ha]
      exact hs.takeFault _ _ (hs.back_inside h2)

/-- `RET` keeps the invariant: the address it pops is a saved one (41_control_flow.md R142). -/
theorem State.Inv.of_execRet {z : Byte} {s t : State} (hs : s.Inv) (hr : s.Running) (h : execRet z s = .next t) :
    t.Inv := by
  unfold execRet at h
  split at h <;> cases h
  · exact hs.dropTop.setPc hr (hs.stackInMemory _ (List.mem_of_getLast? ‹_›))
  · exact hs

/-- `LD Vx, K` keeps the invariant: it goes back to its own instruction or writes a register (45_keypad_timer.md
R263). -/
theorem State.Inv.of_execLdVxK {x : RegIdx} {s t : State} (hs : s.Inv) (hr : s.Running) (h2 : 2 ≤ s.pc.toNat)
    (h : execLdVxK x s = .next t) : t.Inv := by
  unfold execLdVxK at h
  split at h <;> cases h
  · exact hs.keep rfl rfl hs.memCanonical rfl
  · exact hs.setPc hr (hs.back_inside h2)

theorem State.Inv.of_execLdStVx {x : RegIdx} {s t : State} (hs : s.Inv) (h : execLdStVx x s = .next t) : t.Inv := by
  unfold execLdStVx at h
  dsimp only at h
  split at h <;> cases h <;> exact hs.keep rfl rfl hs.memCanonical rfl

/-- Every instruction of an advanced running core keeps the invariant. -/
theorem State.Inv.of_exec {i : Instr} {s t : State} (hs : s.Inv) (hr : s.Running) (h2 : 2 ≤ s.pc.toNat)
    (h : exec i s = .next t) : t.Inv := by
  cases i with
  | ret z => exact hs.of_execRet (z := z) hr h
  | jp nnn =>
    cases h
    exact hs.setPc hr (lt_of_eq_of_lt (target_toNat nnn) nnn.isLt)
  | jpV0 nnn =>
    cases h
    exact hs.setPc hr (lt_of_eq_of_lt (offsetTarget_toNat _ nnn) (Nat.mod_lt _ (by decide)))
  | call nnn =>
    cases h
    exact hs.push.setPc hr (lt_of_eq_of_lt (target_toNat nnn) nnn.isLt)
  | seImm | sneImm | seReg | sneReg | skp | sknp =>
    cases h
    exact hs.skipIf hr h2 _ _
  | ldVxK x => exact hs.of_execLdVxK hr h2 h
  | ldStVx x => exact hs.of_execLdStVx h
  | ldB x =>
    cases h
    exact hs.keep rfl rfl (Memory.wf_write _ _ (Memory.wf_write _ _ (Memory.wf_write _ _ hs.memCanonical))) rfl
  | ldMemVx x =>
    cases h
    exact hs.keep rfl rfl (wf_dumpFrom _ _ hs.memCanonical) rfl
  | _ =>
    cases h
    exact hs.keep rfl rfl hs.memCanonical rfl

/-- Every cycle keeps the invariant, under either configuration. -/
theorem State.Inv.of_cycle {cfg : Config} {s t : State} (hs : s.Inv) (h : cycle cfg s = .next t) : t.Inv := by
  have hAdvance : s.Running → s.CanAdvance → s.advance.Inv := fun hr ha =>
    hs.setPc hr (lt_of_eq_of_lt (advance_toNat ha) ha)
  obtain ⟨hr, ⟨r, -, -, rfl⟩ | ⟨-, rfl⟩ | ⟨ha, i, -, hx⟩ | ⟨ha, r, -, -, rfl⟩⟩ := cycle_cases h
  · exact hs.takeFault _ _ hs.pcInMemory
  · exact hs.takeFault _ _ hs.pcInMemory
  · exact (hAdvance hr ha).of_exec hr (by rw [advance_toNat ha]; omega) hx
  · exact hAdvance hr ha

/-- Settles O19: a step is a canonical cycle. -/
theorem stepKeepsTheInvariant : Obligations.StepKeepsTheInvariant :=
  fun _ _ hs h => hs.of_cycle h

/-- `load` keeps memory canonical. -/
theorem wf_load (bytes : List Int) (offset : HostArg) {s : State} (hm : s.mem.wf = true) :
    (load bytes offset s).1.mem.wf = true := by
  unfold load
  split
  · exact hm
  · split
    · split
      · exact hm
      · exact wf_copyBytes _ _ hm
    · exact hm

/-- Settles O58: a cycle answers the state of a step or its own state, and the other transactions write none of what the
invariant speaks of but memory. -/
theorem transactionsKeepTheInvariant : Obligations.TransactionsKeepTheInvariant := by
  intro cfg tr s hs
  cases tr with
  | emulateCycle =>
    obtain hStep | hSame := emulateCycle_state cfg s
    · exact hs.of_cycle hStep
    · exact hSame.symm ▸ hs
  | decrementTimers => exact hs.keep rfl rfl hs.memCanonical rfl
  | load bytes offset =>
    have hFrame := onlyWrites_load bytes offset s
    exact hs.keep (hFrame .pc (by simp)) (hFrame .stack (by simp)) (wf_load bytes offset hs.memCanonical)
      (hFrame .fault (by simp))
  | setKeyPressed id =>
    obtain ⟨k, hk⟩ := setKeyPressed_state id s
    show (setKeyPressed id s).1.Inv
    rw [hk]
    exact hs.keep rfl rfl hs.memCanonical rfl
  | setKeyReleased id =>
    obtain ⟨k, hk⟩ := setKeyReleased_state id s
    show (setKeyReleased id s).1.Inv
    rw [hk]
    exact hs.keep rfl rfl hs.memCanonical rfl
  | readFramebuffer => exact hs

/-! ### The tone request of a cycle (40_cycle_and_interface.md R122) -/

/-- A cycle that replies OK took a step without a fault, and reports the requests of that step. -/
theorem emulateCycle_cycleOk {cfg : Config} {s t : State} {out : List Byte}
    (h : emulateCycle cfg s = (t, .cycleOk out)) :
    cycle cfg s = .next t ∧ t.fault = none ∧ out = t.tones.drop s.tones.length := by
  unfold emulateCycle at h
  split at h
  · split at h <;> cases h
    exact ⟨‹_›, ‹_›, rfl⟩
  · cases h
  · cases h

/-- A cycle without a fault on a word that decodes executed its instruction. -/
theorem cycle_executed {cfg : Config} {s t : State} {i : Instr} (h : cycle cfg s = .next t) (hf : t.fault = none)
    (hd : decode s.fetchWord = .ok i) : exec i s.advance = .next t := by
  obtain ⟨-, ⟨r, hd', -, -⟩ | ⟨-, rfl⟩ | ⟨-, i', hd', hx⟩ | ⟨-, r, hd', -, -⟩⟩ := cycle_cases h
  · cases hd.symm.trans hd'
  · cases hf
  · cases hd.symm.trans hd'
    exact hx
  · cases hd.symm.trans hd'

/-- Settles O57: the requests reported are those the executed instruction appends, and only `LD ST, Vx` appends. -/
theorem cycleReportsItsToneRequest : Obligations.CycleReportsItsToneRequest := by
  intro cfg s t out h
  have hState : (emulateCycle cfg s).1 = t := congrArg Prod.fst h
  obtain ⟨hCycle, hf, rfl⟩ := emulateCycle_cycleOk h
  have hTones : ∀ x, decode s.fetchWord = .ok (.ldStVx x) →
      t.tones.drop s.tones.length = if 0 < (s.reg x).toNat then [s.reg x] else [] := fun x hd => by
    rw [(execLdStVx_st_tones (cycle_executed hCycle hf hd)).2]
    exact List.drop_left
  refine ⟨fun x hd hPos => by rw [hTones x hd, if_pos hPos], fun hZero => ?_⟩
  by_cases hSame : (emulateCycle cfg s).1.tones = s.tones
  · rw [← hState, hSame, List.drop_length]
  · obtain ⟨i, hd, hx⟩ := emulateCycle_change_executed State.tones (fun _ => rfl) (fun _ _ _ _ => rfl) hSame
    obtain ⟨x, rfl⟩ := writes_tones (writes_of_change (p := .tones) hx hSame)
    rw [hTones x hd, hZero x hd]
    rfl

/-! ### A halted core stays halted (60_exceptions.md R304, R309) -/

/-- The parts a halted core's transactions can write. -/
def haltedWrites (p : Part) : Prop := p = .dt ∨ p = .st ∨ p = .keys ∨ ∃ a, p = .byte a

/-- A transaction on a halted core writes timers, keypad or memory. -/
theorem onlyWrites_transact_of_halted (cfg : Config) (tr : Transaction) {s : State} {f : FaultRecord}
    (hf : s.fault = some f) : OnlyWrites s (transact cfg tr s).1 haltedWrites := by
  have hFrame := transactionsWriteOnlyTheirState cfg tr s
  cases tr with
  | emulateCycle =>
    rw [(haltedCoreReturnsItsFault cfg s f hf).2]
    exact OnlyWrites.refl s _
  | decrementTimers => exact hFrame.mono fun _ hp => hp.elim .inl (.inr ∘ .inl)
  | load bytes offset => exact hFrame.mono fun _ hp => .inr (.inr (.inr hp))
  | setKeyPressed id => exact hFrame.mono fun _ hp => .inr (.inr (.inl hp))
  | setKeyReleased id => exact hFrame.mono fun _ hp => .inr (.inr (.inl hp))
  | readFramebuffer => exact hFrame.mono fun _ => False.elim

/-- Settles O60, by induction on the transactions: each leaves the fault status, so the next one finds a halted core
again. -/
theorem haltedCoreStaysHalted : Obligations.HaltedCoreStaysHalted := by
  intro cfg trs s f hf
  induction trs generalizing s with
  | nil => exact ⟨hf, OnlyWrites.refl s _⟩
  | cons tr trs ih =>
    have hFrame := onlyWrites_transact_of_halted cfg tr hf
    have hFault : (transact cfg tr s).1.fault = some f := (hFrame .fault (by simp [haltedWrites])).trans hf
    obtain ⟨hLast, hRest⟩ := ih _ hFault
    exact ⟨hLast, hFrame.trans hRest⟩

end Sys2Proof.Machine
end
